-- ==== Sys2Proof/Word.lean ====
section
/-!
DEFINITION. The plain value types of the block: 32-bit register words, bytes, exact time, levels and the
TxFrame (spec 00_scope.md R7, 10_state.md R33).
-/

namespace Sys2Proof

/-- A register value: an unsigned 32-bit word (00 R7, decision D3). -/
abbrev Word := BitVec 32

/-- A byte: 8 bits (00 R7). -/
abbrev Byte := BitVec 8

/-- A time in seconds, an exact rational (00 R7, decision D18). -/
abbrev Time := Rat

/-- The level of a pin (00 R7). -/
inductive Level where
  | high
  | low
  deriving DecidableEq, Repr

/-- The TxFrame (10 R33): the byte being sent, the next slot to emit (-1 start, 0 to 7 data, 8 stop) and
whether the stop bit has been emitted. -/
structure TxFrame where
  byte : Byte
  bitIndex : Int
  done : Bool
  deriving DecidableEq, Repr

end Sys2Proof
end

