-- ==== Sys2Proof/Config.lean ====
section
/-!
DEFINITION. The implementation parameters of spec 00_scope.md R6. Those the spec marks OPEN are opaque
constants: nothing in Lean can prove a value of one.
-/

namespace Sys2Proof

/-- `C`, the capacity of the MessageBuffer in bytes (decision D7). -/
abbrev Config.capacity : Nat := 256

/-- `NPINS`, the number of logical pins (decision D6, general knowledge G1). -/
abbrev Config.npins : Nat := 54

/-- `NFSEL = ceil(NPINS / 10)`, the number of function-select registers. -/
abbrev Config.nfsel : Nat := (Config.npins + 9) / 10

/-- `NBANK = ceil(NPINS / 32)`, the number of set banks and of clear banks. -/
abbrev Config.nbank : Nat := (Config.npins + 31) / 32

/-- `DEFAULT_PIN` (00 R6). -/
abbrev Config.defaultPin : Fin Config.npins := ⟨4, by decide⟩

/-- `DEFAULT_BAUD` (00 R6). -/
abbrev Config.defaultBaud : Nat := 4800

/-- `FUNC_OUTPUT`, the output function code (decision D5, general knowledge G2). -/
abbrev Config.funcOutput : BitVec 3 := 0b001#3

/-- `GPIO_BASE` counted in words. The spec leaves the base OPEN (00 R6, decision D4); it is counted in words so
that the base is word aligned, which 20 R62 needs (PRESUMED, safe: log entry 7). -/
opaque Config.gpioBaseWord : Nat

/-- `GPIO_BASE`, the byte address of the register block: OPEN. -/
def Config.gpioBase : Nat := 4 * Config.gpioBaseWord

/-- `OFF_FSEL(i)` (20 R61, general knowledge G3). -/
def Config.offFsel (i : Nat) : Nat := 4 * i

/-- `OFF_SET(b)` (20 R61, general knowledge G3). -/
def Config.offSet (b : Nat) : Nat := 0x1C + 4 * b

/-- `OFF_CLR(b)` (20 R61, general knowledge G3). -/
def Config.offClr (b : Nat) : Nat := 0x28 + 4 * b

/-- `BIT_PERIOD_TOL`: OPEN (00 R6, 70 R268). No step reads it; it is named only by `Sys2Proof.onTime`, the
condition a physical realisation has to meet. -/
opaque Config.bitPeriodTol : Rat

end Sys2Proof
end

