-- ==== Sys2Proof/Syntax.lean ====
section
/-!
DEFINITION. The operations of the block, one constructor per row of spec/opcode_table.json, with the operands
of spec 30_encoding.md R92. Operands the spec calls integers are `Int`, so that an operand outside its
range can be written and is refused (30 R103). Each operand of SYS.init may be left out, and then has its default (46
R190, R196).
-/

namespace Sys2Proof

/-- The 22 operations (30 R91), in the table's order. -/
inductive Instr where
  | rbSetFunction (registerIndex bitOffset functionCode : Int)
  | rbSetBit (bankIndex bitPosition : Int)
  | rbClearBit (bankIndex bitPosition : Int)
  | pdConfigureAsOutput (pin : Int)
  | pdWriteLevel (pin : Int) (high : Bool)
  | encFresh (byte : Byte)
  | encNextBit (frame : TxFrame)
  | engArm
  | engCancel
  | engTick
  | timerSchedule (due : Time)
  | timerDeschedule
  | mbEnqueue (bytes : List Byte)
  | mbConsume
  | mbIsEmpty
  | mbDequeue
  | sysInit (pin baud : Option Int)
  | sysTeardown
  | devOpen
  | devWrite (data : List Byte) (length : Nat)
  | devRead (bufferCapacity : Nat) (copyOk : Bool)
  | devClose
  deriving DecidableEq, Repr

end Sys2Proof
end

