-- ==== Sys2Proof/WellFormed.lean ====
section
/-!
DEFINITION. The operand ranges of spec 30_encoding.md R92 and R103 as checks on an operation, and the legal
values of a TxFrame (10_state.md R44 INV4).
-/

namespace Sys2Proof

/-- INV4 of 10 R44: `-1 <= bitIndex <= 8`, and a finished frame stands at 8. -/
def TxFrame.legal (f : TxFrame) : Bool :=
  decide (-1 ≤ f.bitIndex) && decide (f.bitIndex ≤ 8) && (!f.done || decide (f.bitIndex = 8))

/-- `0 <= v < n`. -/
def inRange (n : Nat) (v : Int) : Bool := decide (0 ≤ v) && decide (v < n)

/-- The operands of an operation are in the ranges of 30 R92. What a range needs from the state (`due >= now`
of TIMER.schedule, a non-empty buffer) is not syntax and is checked by the operation. -/
def Instr.wf : Instr → Bool
  | .rbSetFunction r off code =>
    inRange Config.nfsel r && (inRange 28 off && decide (off % 3 = 0)) && inRange 8 code
  | .rbSetBit b k => inRange Config.nbank b && inRange 32 k
  | .rbClearBit b k => inRange Config.nbank b && inRange 32 k
  | .pdConfigureAsOutput p => inRange Config.npins p
  | .pdWriteLevel p _ => inRange Config.npins p
  | .encFresh _ => true
  | .encNextBit f => f.legal && !f.done
  | .engArm => true
  | .engCancel => true
  | .engTick => true
  | .timerSchedule _ => true
  | .timerDeschedule => true
  | .mbEnqueue _ => true
  | .mbConsume => true
  | .mbIsEmpty => true
  | .mbDequeue => true
  | .sysInit _ _ => true
  | .sysTeardown => true
  | .devOpen => true
  | .devWrite data n => decide (n = data.length)
  | .devRead _ _ => true
  | .devClose => true

end Sys2Proof
end

