-- ==== Sys2Proof/Decode.lean ====
section
/-!
DEFINITION. The command word of spec 30_encoding.md: an 8-bit selector (R91) with typed operands beside it
(R92). The decoder is total and rejects by name; the encoder follows it. Then the format (R90) and the
execution contexts (60_exceptions.md R231) of each operation.
-/

namespace Sys2Proof

/-- A typed operand value that travels beside the selector (30 R91, R92). `omitted` holds the place of an operand left to
its default in front of one that is given (DESIGN CHOICE, safe: log entry 20). -/
inductive Operand where
  | int (v : Int)
  | nat (v : Nat)
  | flag (v : Bool)
  | byte (v : Byte)
  | bytes (v : List Byte)
  | frame (v : TxFrame)
  | time (v : Time)
  | omitted
  deriving DecidableEq, Repr

/-- The type of an operand (30 R92). -/
inductive OperandKind where
  | int | nat | flag | byte | bytes | frame | time | omitted
  deriving DecidableEq, Repr

/-- An issued command: the selector and its operands. -/
structure Command where
  selector : Byte
  operands : List Operand
  deriving DecidableEq, Repr

/-- Why a command names no operation. -/
inductive DecodeError where
  /-- The selector is not in the table of 30 R91 (R103). Safe. -/
  | unassignedSelector (selector : Byte)
  /-- The operands beside the selector are not of the number and types of 30 R92. Safe. -/
  | operandMismatch (selector : Byte)
  deriving DecidableEq, Repr

/-- The names of the operations, without operands. -/
inductive Opcode where
  | rbSetFunction | rbSetBit | rbClearBit | pdConfigureAsOutput | pdWriteLevel | encFresh | encNextBit
  | engArm | engCancel | engTick | timerSchedule | timerDeschedule
  | mbEnqueue | mbConsume | mbIsEmpty | mbDequeue | sysInit | sysTeardown
  | devOpen | devWrite | devRead | devClose
  deriving DecidableEq, Repr

/-- The classes of operations of 30 R90. -/
inductive Format where
  | cmd | evt | sub | dev
  deriving DecidableEq, Repr

/-- The execution contexts of 60 R228. -/
inductive Context where
  | process | callback
  deriving DecidableEq, Repr

/-- The rows of 30 R91 for RB, PD and ENC. -/
def pinRows : List (Byte × Opcode) :=
  [(0x10#8, .rbSetFunction), (0x11#8, .rbSetBit), (0x12#8, .rbClearBit), (0x20#8, .pdConfigureAsOutput),
   (0x21#8, .pdWriteLevel), (0x30#8, .encFresh), (0x31#8, .encNextBit)]

/-- The rows of 30 R91 for ENG and TIMER. -/
def engineRows : List (Byte × Opcode) :=
  [(0x40#8, .engArm), (0x41#8, .engCancel), (0x42#8, .engTick), (0x43#8, .timerSchedule),
   (0x44#8, .timerDeschedule)]

/-- The rows of 30 R91 for MB, SYS and DEV. -/
def callerRows : List (Byte × Opcode) :=
  [(0x50#8, .mbEnqueue), (0x51#8, .mbConsume), (0x52#8, .mbIsEmpty), (0x53#8, .mbDequeue),
   (0x60#8, .sysInit), (0x61#8, .sysTeardown), (0x70#8, .devOpen), (0x71#8, .devWrite),
   (0x72#8, .devRead), (0x73#8, .devClose)]

/-- The selector table of 30 R91, in the table's order. -/
def selectorTable : List (Byte × Opcode) := pinRows ++ engineRows ++ callerRows

/-- The operation a selector names, if any: all eight bits are matched (30 R91). -/
def opcodeOf (selector : Byte) : Option Opcode :=
  (selectorTable.find? fun row => row.1 == selector).map Prod.snd

/-- The operand types of an operation, in order, with every operand given (30 R92). -/
def Opcode.kinds : Opcode → List OperandKind
  | .rbSetFunction => [.int, .int, .int]
  | .rbSetBit => [.int, .int]
  | .rbClearBit => [.int, .int]
  | .pdConfigureAsOutput => [.int]
  | .pdWriteLevel => [.int, .flag]
  | .encFresh => [.byte]
  | .encNextBit => [.frame]
  | .engArm => []
  | .engCancel => []
  | .engTick => []
  | .timerSchedule => [.time]
  | .timerDeschedule => []
  | .mbEnqueue => [.bytes]
  | .mbConsume => []
  | .mbIsEmpty => []
  | .mbDequeue => []
  | .sysInit => [.int, .int]
  | .sysTeardown => []
  | .devOpen => []
  | .devWrite => [.bytes, .nat]
  | .devRead => [.nat, .flag]
  | .devClose => []

/-- The operand types an operation may be written with: every operand given, and for SYS.init also with the pin, the baud
or both left to their defaults (46 R190, R196; log entry 20). -/
def Opcode.forms (op : Opcode) : List (List OperandKind) :=
  op.kinds :: if op = .sysInit then [[], [.int], [.omitted, .int]] else []

/-- The operation with these operands, if they are of its types (30 R92, 46 R196). -/
def build (op : Opcode) (operands : List Operand) : Option Instr :=
  match op with
  | .rbSetFunction =>
    match operands with
    | [.int r, .int off, .int code] => some (.rbSetFunction r off code)
    | _ => none
  | .rbSetBit => match operands with | [.int b, .int k] => some (.rbSetBit b k) | _ => none
  | .rbClearBit => match operands with | [.int b, .int k] => some (.rbClearBit b k) | _ => none
  | .pdConfigureAsOutput => match operands with | [.int p] => some (.pdConfigureAsOutput p) | _ => none
  | .pdWriteLevel => match operands with | [.int p, .flag h] => some (.pdWriteLevel p h) | _ => none
  | .encFresh => match operands with | [.byte b] => some (.encFresh b) | _ => none
  | .encNextBit => match operands with | [.frame f] => some (.encNextBit f) | _ => none
  | .engArm => match operands with | [] => some .engArm | _ => none
  | .engCancel => match operands with | [] => some .engCancel | _ => none
  | .engTick => match operands with | [] => some .engTick | _ => none
  | .timerSchedule => match operands with | [.time d] => some (.timerSchedule d) | _ => none
  | .timerDeschedule => match operands with | [] => some .timerDeschedule | _ => none
  | .mbEnqueue => match operands with | [.bytes bs] => some (.mbEnqueue bs) | _ => none
  | .mbConsume => match operands with | [] => some .mbConsume | _ => none
  | .mbIsEmpty => match operands with | [] => some .mbIsEmpty | _ => none
  | .mbDequeue => match operands with | [] => some .mbDequeue | _ => none
  | .sysInit =>
    match operands with
    | [] => some (.sysInit none none)
    | [.int p] => some (.sysInit (some p) none)
    | [.omitted, .int b] => some (.sysInit none (some b))
    | [.int p, .int b] => some (.sysInit (some p) (some b))
    | _ => none
  | .sysTeardown => match operands with | [] => some .sysTeardown | _ => none
  | .devOpen => match operands with | [] => some .devOpen | _ => none
  | .devWrite => match operands with | [.bytes d, .nat n] => some (.devWrite d n) | _ => none
  | .devRead => match operands with | [.nat c, .flag ok] => some (.devRead c ok) | _ => none
  | .devClose => match operands with | [] => some .devClose | _ => none

/-- The decoder: total on every command, rejecting by name (30 R91, R92, R103). -/
def decode (c : Command) : Except DecodeError Instr :=
  match opcodeOf c.selector with
  | none => .error (.unassignedSelector c.selector)
  | some op =>
    match build op c.operands with
    | none => .error (.operandMismatch c.selector)
    | some i => .ok i

/-- The selector of an operation (30 R91). -/
def Instr.selector : Instr → Byte
  | .rbSetFunction _ _ _ => 0x10#8
  | .rbSetBit _ _ => 0x11#8
  | .rbClearBit _ _ => 0x12#8
  | .pdConfigureAsOutput _ => 0x20#8
  | .pdWriteLevel _ _ => 0x21#8
  | .encFresh _ => 0x30#8
  | .encNextBit _ => 0x31#8
  | .engArm => 0x40#8
  | .engCancel => 0x41#8
  | .engTick => 0x42#8
  | .timerSchedule _ => 0x43#8
  | .timerDeschedule => 0x44#8
  | .mbEnqueue _ => 0x50#8
  | .mbConsume => 0x51#8
  | .mbIsEmpty => 0x52#8
  | .mbDequeue => 0x53#8
  | .sysInit _ _ => 0x60#8
  | .sysTeardown => 0x61#8
  | .devOpen => 0x70#8
  | .devWrite _ _ => 0x71#8
  | .devRead _ _ => 0x72#8
  | .devClose => 0x73#8

/-- The operands of SYS.init that are written out (46 R196; log entry 20). -/
def initOperands (pin baud : Option Int) : List Operand :=
  match pin, baud with
  | none, none => []
  | some p, none => [.int p]
  | none, some b => [.omitted, .int b]
  | some p, some b => [.int p, .int b]

/-- The operands of an operation, in the order of 30 R92. -/
def Instr.operands : Instr → List Operand
  | .rbSetFunction r off code => [.int r, .int off, .int code]
  | .rbSetBit b k => [.int b, .int k]
  | .rbClearBit b k => [.int b, .int k]
  | .pdConfigureAsOutput p => [.int p]
  | .pdWriteLevel p h => [.int p, .flag h]
  | .encFresh b => [.byte b]
  | .encNextBit f => [.frame f]
  | .engArm => []
  | .engCancel => []
  | .engTick => []
  | .timerSchedule d => [.time d]
  | .timerDeschedule => []
  | .mbEnqueue bs => [.bytes bs]
  | .mbConsume => []
  | .mbIsEmpty => []
  | .mbDequeue => []
  | .sysInit pin baud => initOperands pin baud
  | .sysTeardown => []
  | .devOpen => []
  | .devWrite d n => [.bytes d, .nat n]
  | .devRead c ok => [.nat c, .flag ok]
  | .devClose => []

/-- The encoder: the command that issues an operation. -/
def encode (i : Instr) : Command := ⟨i.selector, i.operands⟩

/-- The format of an operation (30 R90). -/
def Instr.format : Instr → Format
  | .rbSetFunction _ _ _ => .sub
  | .rbSetBit _ _ => .sub
  | .rbClearBit _ _ => .sub
  | .pdConfigureAsOutput _ => .sub
  | .pdWriteLevel _ _ => .sub
  | .encFresh _ => .sub
  | .encNextBit _ => .sub
  | .engArm => .cmd
  | .engCancel => .cmd
  | .engTick => .evt
  | .timerSchedule _ => .sub
  | .timerDeschedule => .sub
  | .mbEnqueue _ => .cmd
  | .mbConsume => .cmd
  | .mbIsEmpty => .cmd
  | .mbDequeue => .sub
  | .sysInit _ _ => .cmd
  | .sysTeardown => .cmd
  | .devOpen => .dev
  | .devWrite _ _ => .dev
  | .devRead _ _ => .dev
  | .devClose => .dev

/-- The contexts an operation may be issued from (60 R231). -/
def Instr.contexts : Instr → List Context
  | .rbSetFunction _ _ _ => [.process]
  | .rbSetBit _ _ => [.process, .callback]
  | .rbClearBit _ _ => [.process, .callback]
  | .pdConfigureAsOutput _ => [.process]
  | .pdWriteLevel _ _ => [.process, .callback]
  | .encFresh _ => [.callback]
  | .encNextBit _ => [.callback]
  | .engArm => [.process]
  | .engCancel => [.process]
  | .engTick => [.callback]
  | .timerSchedule _ => [.process, .callback]
  | .timerDeschedule => [.process]
  | .mbEnqueue _ => [.process]
  | .mbConsume => [.process]
  | .mbIsEmpty => [.process, .callback]
  | .mbDequeue => [.callback]
  | .sysInit _ _ => [.process]
  | .sysTeardown => [.process]
  | .devOpen => [.process]
  | .devWrite _ _ => [.process]
  | .devRead _ _ => [.process]
  | .devClose => [.process]

/-- The type of an operand value (30 R92). -/
def Operand.kind : Operand → OperandKind
  | .int _ => .int
  | .nat _ => .nat
  | .flag _ => .flag
  | .byte _ => .byte
  | .bytes _ => .bytes
  | .frame _ => .frame
  | .time _ => .time
  | .omitted => .omitted

/-- The operand of a type whose bits are all zero. -/
def OperandKind.zero : OperandKind → Operand
  | .int => .int 0
  | .nat => .nat 0
  | .flag => .flag false
  | .byte => .byte 0#8
  | .bytes => .bytes []
  | .frame => .frame ⟨0#8, 0, false⟩
  | .time => .time 0
  | .omitted => .omitted

/-- The command whose selector is given and whose operands, of the selector's types, are all zero. -/
def zeroCommand (selector : Byte) : Command :=
  match opcodeOf selector with
  | none => ⟨selector, []⟩
  | some op => ⟨selector, op.kinds.map OperandKind.zero⟩

/-- The operation the decoder reads from a table word: the table gives every row one byte, the selector, and the
operands beside it are taken as zeros. -/
def decodeTableWord (nbits w : Nat) : Option Instr :=
  if nbits = 8 ∧ w < 256 then
    match decode (zeroCommand (BitVec.ofNat 8 w)) with
    | .ok i => some i
    | .error _ => none
  else none

end Sys2Proof
end

