-- ==== Sys2Proof/Machine/State.lean ====
section
/-!
DEFINITION. The state of the block (spec 10_state.md R20) as plain data, the reasons a step can stop
(60_exceptions.md R217, R219) and the state at power-on (10 R45).
-/

namespace Sys2Proof.Machine

/-- `life` (10 R21). -/
inductive Life where
  | uninit | ready | down
  deriving DecidableEq, Repr

/-- The EngineState (10 R34). -/
inductive EngineState where
  | idle | armed | transmitting
  deriving DecidableEq, Repr

/-- The registers of the register bank, by kind and index (10 R27, R28, R39). -/
inductive Reg where
  | fsel (i : Fin Config.nfsel)
  | set (b : Fin Config.nbank)
  | clr (b : Fin Config.nbank)
  deriving DecidableEq, Repr

/-- The level of the line (10 R31). `undriven` is not a level and is never given one. -/
inductive Line where
  | driven (l : Level)
  | undriven
  deriving DecidableEq, Repr

/-- The status an operation ends with (60 R211). `eRegistration` is raised by the excluded front-end only (60 R216). -/
inductive Status where
  | ok | eOversize | eBusy | eConfig | eFault | eRegistration
  deriving DecidableEq, Repr

/-- The result an operation returns beside its status (30 R92). -/
inductive Result where
  | none
  | count (n : Nat)
  | flag (b : Bool)
  | byte (b : Byte)
  | bytes (payload : List Byte) (length : Nat)
  | frame (f : TxFrame)
  | levelFrame (l : Level) (f : TxFrame)
  deriving DecidableEq, Repr

/-- An event of the observation trace (10 R38). -/
inductive TraceEvent where
  | regRead (r : Reg)
  | regWrite (r : Reg) (v : Word)
  | level (l : Level)
  | resp (op : Instr) (status : Status) (result : Result)
  deriving DecidableEq, Repr

/-- A trace event stamped with `now` (10 R38). -/
structure Stamped where
  at_ : Time
  event : TraceEvent
  deriving DecidableEq, Repr

/-- One choice of the environment (10 R43): an operation is issued in a context, time passes until a time, or
software outside the block writes a function-select register or changes a pin's latch. DESIGN CHOICE, safe:
log entry 1. -/
inductive Event where
  | call (ctx : Context) (cmd : Command)
  | elapse (untilTime : Time)
  | outsideFsel (i : Fin Config.nfsel) (v : Word)
  | outsideLatch (p : Fin Config.npins) (l : Level)
  deriving DecidableEq, Repr

/-- The configuration: BaudConfig and PinMapping (10 R22, R24). -/
structure Cfg where
  bitsPerSecond : Nat
  logicalPin : Fin Config.npins
  deriving DecidableEq, Repr

/-- The whole state (10 R20), then the model's own two fields: `inbox`, the environment's pending choices, and
`trace`, the observation trace, oldest event first. -/
structure State where
  life : Life
  cfg : Cfg
  mapped : Bool
  fsel : Vector Word Config.nfsel
  out : Vector Level Config.npins
  buf : List Byte
  frame : Option TxFrame
  state : EngineState
  timer : Option Time
  now : Time
  openCount : Nat
  inbox : List Event
  trace : List Stamped
  deriving DecidableEq, Repr

/-- The one fault of the block. -/
inductive Fault where
  /-- A register access while the register bank is not mapped (60 R217, 20 R67), raised by every RB operation and
  by whatever calls one; it names the register and the operation that made the access. Safe: the spec's own fault. -/
  | unmapped (reg : Reg) (op : Instr)
  deriving DecidableEq, Repr

/-- Uses outside the block's contract, to which the spec gives no meaning (60 R219). -/
inductive Refusal where
  /-- Raised by an arm of `exec` for an operation that has no meaning yet. Safe. -/
  | notModelled (mnemonic : String)
  /-- Any operation but SYS.init while `life` is not READY (60 R219, R221). Safe. -/
  | notReady
  /-- SYS.init while `life = READY` (46 R190). Safe. -/
  | alreadyReady
  /-- An operand outside the ranges of 30 R92 (30 R103), raised by every operation with a limited operand. Safe. -/
  | operandOutOfRange
  /-- ENC.nextBit on a frame with `done = true` (43 R141). Safe. -/
  | frameDone
  /-- MB.dequeue on an empty buffer (45 R183). Safe. -/
  | emptyBuffer
  /-- ENG.tick when no callback is due: `timer = None` or `now` is not its due time (44 R152). Safe. -/
  | tickNotEnabled
  /-- ENG.tick with `state = IDLE`, which no run reaches (44 R158). Safe. -/
  | tickInIdle
  /-- ENG.tick in TRANSMITTING with no frame, which no run reaches (10 R44 INV3, 93 U13). Safe. -/
  | tickWithoutFrame
  /-- TIMER.schedule with `due < now` (44 R161). Safe. -/
  | dueBeforeNow
  /-- A read of a SET or CLR strobe (10 R28). Safe. -/
  | strobeRead
  /-- An access to a register-bank address that holds no register of the spec (10 R30). Safe. -/
  | noSuchRegister
  /-- An access that is not one aligned 32-bit word (20 R62). Safe. -/
  | badAccess
  /-- A command the decoder rejects, with the decoder's reason (30 R103). Safe. -/
  | undecodable (e : DecodeError)
  /-- An operation issued from a context the table of 60 R231 does not give it. Safe. -/
  | wrongContext
  /-- The environment lets time run backwards (10 R36). Safe. -/
  | timeRunsBackward
  /-- The environment breaks its duty not to touch the block's function field or latch while READY (60 R238). Safe. -/
  | environmentDuty
  deriving DecidableEq, Repr

/-- Power-on (10 R45): `life`, `mapped`, `timer` and `openCount` as the table states them. The table gives every other
field "any value"; the values here are the model's (DESIGN CHOICE, unsafe: log entries 2 to 5). -/
def State.reset : State where
  life := .uninit
  cfg := ⟨Config.defaultBaud, Config.defaultPin⟩
  mapped := false
  fsel := Vector.replicate _ 0#32
  out := Vector.replicate _ .low
  buf := []
  frame := none
  state := .idle
  timer := none
  now := 0
  openCount := 0
  inbox := []
  trace := []

end Sys2Proof.Machine
end

