-- ==== Sys2Proof/Machine/Flags.lean ====
section
/-!
DEFINITION. The two flags of spec 10_state.md R41 (there are no arithmetic condition codes): the frame-done
flag and "callback pending".
-/

namespace Sys2Proof.Machine

/-- "Callback pending" is `timer != None` (10 R41). -/
def callbackPending (s : State) : Bool := s.timer.isSome

/-- `frame.done`, false when there is no frame (10 R41). -/
def frameDone (s : State) : Bool :=
  match s.frame with
  | some f => f.done
  | none => false

end Sys2Proof.Machine
end

