-- ==== Sys2Proof/Machine/Operands.lean ====
section
/-!
DEFINITION. Operand forms: integers checked against the ranges of spec 30_encoding.md R92, the pin arithmetic
(R93, R94), levels (R96) and the message text of the device file (R100, R101).
-/

namespace Sys2Proof.Machine

/-- An integer operand in `0 .. n-1`, or none when it is outside (30 R103). -/
def finOf (n : Nat) (v : Int) : Option (Fin n) :=
  if h : 0 ≤ v ∧ v < n then some ⟨v.toNat, by omega⟩ else none

/-- A `bitOffset` operand: one of 0, 3, ..., 27 (30 R92). -/
def offsetOf (v : Int) : Option Nat :=
  if 0 ≤ v ∧ v ≤ 27 ∧ v % 3 = 0 then some v.toNat else none

/-- A `functionCode` operand: a 3-bit value (30 R92). -/
def codeOf (v : Int) : Option (BitVec 3) :=
  if 0 ≤ v ∧ v ≤ 7 then some (BitVec.ofInt 3 v) else none

/-- The `pin` operand of SYS.init: `DEFAULT_PIN` when the caller gives none (46 R190, R196). -/
def pinOrDefault (pin : Option Int) : Int := pin.getD (Config.defaultPin.val : Nat)

/-- The `baud` operand of SYS.init: `DEFAULT_BAUD` when the caller gives none (46 R190, R196). -/
def baudOrDefault (baud : Option Int) : Int := baud.getD Config.defaultBaud

/-- `fselIndex(p) = p / 10` (30 R93). -/
def fselIndex (p : Fin Config.npins) : Fin Config.nfsel := ⟨p.val / 10, by
  have h : p.val < 54 := p.isLt
  show p.val / 10 < 6
  omega⟩

/-- `fselOffset(p) = (p % 10) * 3` (30 R93). -/
def fselOffset (p : Fin Config.npins) : Nat := (p.val % 10) * 3

/-- `bank(p) = p / 32` (30 R94). -/
def bank (p : Fin Config.npins) : Fin Config.nbank := ⟨p.val / 32, by
  have h : p.val < 54 := p.isLt
  show p.val / 32 < 2
  omega⟩

/-- `bit(p) = p % 32` (30 R94). -/
def bit (p : Fin Config.npins) : Fin 32 := ⟨p.val % 32, by omega⟩

/-- A data bit of value 1 is HIGH, of value 0 LOW; as a boolean operand, `true` is HIGH (30 R96). -/
def levelOf (b : Bool) : Level := if b then .high else .low

/-- The decimal digits of `n`, most significant first, in front of `acc` (30 R101). `fuel` bounds the number of
digits and `n + 1` is always enough. -/
def decFrom : Nat → Nat → List Byte → List Byte
  | 0, _, acc => acc
  | fuel + 1, n, acc =>
    let acc := BitVec.ofNat 8 (0x30 + n % 10) :: acc
    if n < 10 then acc else decFrom fuel (n / 10) acc

/-- `dec(n)`: the ASCII decimal rendering of a natural number (30 R101). -/
def dec (n : Nat) : List Byte := decFrom (n + 1) n []

/-- The nine bytes ` letters)` (30 R100). -/
def lettersText : List Byte := [0x20#8, 0x6C#8, 0x65#8, 0x74#8, 0x74#8, 0x65#8, 0x72#8, 0x73#8, 0x29#8]

/-- The message DEV.write queues (30 R100). -/
def messageText (data : List Byte) (length : Nat) : List Byte :=
  data ++ [0x28#8] ++ dec length ++ lettersText

end Sys2Proof.Machine
end

