-- ==== Sys2Proof/Machine/Ops.lean ====
section
/-!
DEFINITION. The named operations over the state that the operations of the block share: sequencing, the trace,
the answers to a caller (errors included), register and address access, the line, the bit timer and the
entry of the timer callback.
-/

namespace Sys2Proof.Machine

/-- The outcome of one step or of one action inside it. -/
abbrev Out := Host.Outcome State Fault Refusal

/-- Go on with `k` from a next state; a fault or a refusal ends the operation. -/
def andThen (o : Out) (k : State → Out) : Out :=
  match o with
  | .next s => k s
  | .fault f => .fault f
  | .refused r => .refused r

/-- `trace(ev)`: append the event, stamped with `now` (00 R8, 10 R38). -/
def record (ev : TraceEvent) (s : State) : State :=
  { s with trace := s.trace ++ [⟨s.now, ev⟩] }

/-- The operation ends with a status and a result for its caller (00 R8). An error status is handed over in the
same way: nothing is saved and control goes nowhere (60 R220). -/
def reply (op : Instr) (st : Status) (res : Result) (s : State) : Out :=
  .next (record (.resp op st res) s)

/-- The numbers of the statuses (60 R211, decision D20). No operation reads them. -/
def statusCode : Status → Nat
  | .ok => 0
  | .eOversize => 1
  | .eBusy => 2
  | .eConfig => 3
  | .eFault => 4
  | .eRegistration => 5

/-- The refusal of every operation but SYS.init outside `life = READY`, tested before anything else (60 R219, R221). -/
def whenReady (s : State) (k : State → Out) : Out :=
  if s.life = .ready then k s else .refused .notReady

/-- `T = 1 / cfg.bitsPerSecond` in seconds, exact (10 R23). -/
def bitPeriod (s : State) : Time := 1 / (s.cfg.bitsPerSecond : Rat)

/-- The latches after the word `m` was written to strobe `b` of the registers that drive `l` (10 R28). -/
def strobe (b : Fin Config.nbank) (m : Word) (l : Level) (out : Vector Level Config.npins) :
    Vector Level Config.npins :=
  Vector.ofFn fun p => if p.val / 32 = b.val ∧ m.getLsbD (p.val % 32) = true then l else out[p]

/-- Read a register of the bank and go on with its value (20 R67, 10 R27, R28). -/
def regRead (op : Instr) (r : Reg) (s : State) (k : Word → State → Out) : Out :=
  if s.mapped then
    match r with
    | .fsel i => k s.fsel[i] (record (.regRead r) s)
    | .set _ => .refused .strobeRead
    | .clr _ => .refused .strobeRead
  else .fault (.unmapped r op)

/-- The registers and latches after the word `v` reached register `r` (10 R27, R28). -/
def applyWrite (r : Reg) (v : Word) (s : State) : State :=
  match r with
  | .fsel i => { s with fsel := s.fsel.set i v }
  | .set b => { s with out := strobe b v .high s.out }
  | .clr b => { s with out := strobe b v .low s.out }

/-- Write a register of the bank (20 R67, R69). -/
def regWrite (op : Instr) (r : Reg) (v : Word) (s : State) : Out :=
  if s.mapped then .next (record (.regWrite r v) (applyWrite r v s)) else .fault (.unmapped r op)

/-- The byte address of a register (20 R61). -/
def regAddr : Reg → Nat
  | .fsel i => Config.gpioBase + Config.offFsel i
  | .set b => Config.gpioBase + Config.offSet b
  | .clr b => Config.gpioBase + Config.offClr b

/-- The registers of the bank (10 R39). -/
def allRegs : List Reg :=
  (List.finRange Config.nfsel).map Reg.fsel ++ (List.finRange Config.nbank).map Reg.set ++
    (List.finRange Config.nbank).map Reg.clr

/-- The register that an access of `size` bytes at `addr` reaches (20 R61, R62, 10 R30). -/
def regAt (addr size : Nat) : Except Refusal Reg :=
  if size = 4 ∧ addr % 4 = 0 then
    match allRegs.find? fun r => regAddr r == addr with
    | some r => .ok r
    | none => .error .noSuchRegister
  else .error .badAccess

/-- `MemRead(addr, size)` of the register-bank space (00 R8). -/
def memRead (op : Instr) (addr size : Nat) (s : State) (k : Word → State → Out) : Out :=
  match regAt addr size with
  | .ok r => regRead op r s k
  | .error e => .refused e

/-- `MemWrite(addr, size, v)` to the register-bank space (00 R8). -/
def memWrite (op : Instr) (addr size : Nat) (v : Word) (s : State) : Out :=
  match regAt addr size with
  | .ok r => regWrite op r v s
  | .error e => .refused e

/-- The 3-bit field of a word whose lowest bit is `off` (10 R27). -/
def fieldAt (w : Word) (off : Nat) : BitVec 3 := w.extractLsb' off 3

/-- The word with the 3-bit field at `off` cleared and `code` put in (41 R120). -/
def insertField (old : Word) (off : Nat) (code : BitVec 3) : Word :=
  (old &&& ~~~(0b111#32 <<< off)) ||| (code.zeroExtend 32 <<< off)

/-- The function field of the block's own pin. -/
def pinField (s : State) : BitVec 3 :=
  fieldAt s.fsel[fselIndex s.cfg.logicalPin] (fselOffset s.cfg.logicalPin)

/-- The level of the block's output line (10 R31). -/
def line (s : State) : Line :=
  if pinField s = Config.funcOutput then .driven s.out[s.cfg.logicalPin] else .undriven

/-- The one-shot timer is armed (44 R161). -/
def setTimer (due : Time) (s : State) : State := { s with timer := some due }

/-- The one-shot timer is disarmed (44 R162). The entry of the timer callback, which saves nothing and changes no
mode, is the same action: the firing consumes the timer (44 R152, 60 R223, R225). -/
def clearTimer (s : State) : State := { s with timer := none }

/-- The entry of the timer callback (44 R152): when a callback is scheduled for this very time, the firing consumes
the timer and `k` runs with the due time. -/
def enterCallback (s : State) (k : Time → State → Out) : Out :=
  match s.timer with
  | none => .refused .tickNotEnabled
  | some due => if s.now = due then k due (clearTimer s) else .refused .tickNotEnabled

/-- The callback returns: there is no return instruction and nothing to restore (60 R226). -/
def leaveCallback (s : State) : Out := .next s

end Sys2Proof.Machine
end

