-- ==== Sys2Proof/Machine/FrameEncoder.lean ====
section
/-!
DEFINITION. The TxFrameEncoder operations (spec 43_txframeencoder.md): pure functions over the frame.
-/

namespace Sys2Proof.Machine

/-- The frame of a byte at its start position (43 R140). -/
def ENC.fresh (b : Byte) : TxFrame := ⟨b, -1, false⟩

/-- Emit one slot and advance (43 R141). A `bitIndex` outside -1 .. 8 does not exist (30 R103). -/
def ENC.nextBit (f : TxFrame) : Except Refusal (Level × TxFrame) :=
  if f.done then .error .frameDone
  else if f.bitIndex = -1 then .ok (.low, { f with bitIndex := 0 })
  else if 0 ≤ f.bitIndex ∧ f.bitIndex ≤ 7 then
    .ok (levelOf (f.byte.getLsbD f.bitIndex.toNat), { f with bitIndex := f.bitIndex + 1 })
  else if f.bitIndex = 8 then .ok (.high, { f with done := true })
  else .error .operandOutOfRange

/-- ENC.fresh, issued (43 R140). -/
def execEncFresh (byte : Byte) (s : State) : Out :=
  whenReady s fun s => reply (.encFresh byte) .ok (.frame (ENC.fresh byte)) s

/-- ENC.nextBit, issued (43 R141). -/
def execEncNextBit (frame : TxFrame) (s : State) : Out :=
  whenReady s fun s =>
    match ENC.nextBit frame with
    | .ok (l, f) => reply (.encNextBit frame) .ok (.levelFrame l f) s
    | .error r => .refused r

end Sys2Proof.Machine
end

