-- ==== Sys2Proof/Machine/MessageBuffer.lean ====
section
/-!
DEFINITION. The MessageBuffer operations (spec 45_messagebuffer.md).
-/

namespace Sys2Proof.Machine

/-- The body of MB.enqueue (45 R180): the size check comes before the busy check. -/
def MB.enqueue (bytes : List Byte) (s : State) : Status × State :=
  if bytes.length > Config.capacity then (.eOversize, s)
  else if s.state ≠ .idle then (.eBusy, s)
  else (.ok, { s with buf := bytes })

/-- The body of MB.consume (45 R181): the payload, and the state with the buffer emptied. -/
def MB.consume (s : State) : List Byte × State := (s.buf, { s with buf := [] })

/-- The body of MB.isEmpty (45 R182). -/
def MB.isEmpty (s : State) : Bool := s.buf.isEmpty

/-- The body of MB.dequeue (45 R183): the head of the buffer, or none when it is empty. -/
def MB.dequeue (s : State) : Option (Byte × State) :=
  match s.buf with
  | [] => none
  | b :: rest => some (b, { s with buf := rest })

/-- MB.enqueue, issued (45 R180). -/
def execMbEnqueue (bytes : List Byte) (s : State) : Out :=
  whenReady s fun s =>
    match MB.enqueue bytes s with
    | (st, s) => reply (.mbEnqueue bytes) st .none s

/-- MB.consume, issued (45 R181). -/
def execMbConsume (s : State) : Out :=
  whenReady s fun s =>
    match MB.consume s with
    | (p, s) => reply .mbConsume .ok (.bytes p p.length) s

/-- MB.isEmpty, issued (45 R182). -/
def execMbIsEmpty (s : State) : Out :=
  whenReady s fun s => reply .mbIsEmpty .ok (.flag (MB.isEmpty s)) s

/-- MB.dequeue, issued (45 R183). -/
def execMbDequeue (s : State) : Out :=
  whenReady s fun s =>
    match MB.dequeue s with
    | some (b, s) => reply .mbDequeue .ok (.byte b) s
    | none => .refused .emptyBuffer

end Sys2Proof.Machine
end

