-- ==== Sys2Proof/Machine/RegisterBank.lean ====
section
/-!
DEFINITION. The RegisterBank operations (spec 41_registerbank.md).
-/

namespace Sys2Proof.Machine

/-- The body of RB.setFunction (41 R120): one read and one write of the same register. -/
def RB.setFunction (r : Fin Config.nfsel) (off : Nat) (code : BitVec 3) (s : State) : Out :=
  let op := Instr.rbSetFunction r.val off code.toNat
  regRead op (.fsel r) s fun old s => regWrite op (.fsel r) (insertField old off code) s

/-- `if 32*b + k = cfg.logicalPin then trace(Level(l))` (41 R121, R122). -/
def noteLevel (b : Fin Config.nbank) (k : Fin 32) (l : Level) (s : State) : State :=
  if 32 * b.val + k.val = s.cfg.logicalPin.val then record (.level l) s else s

/-- The body of RB.setBit (41 R121). -/
def RB.setBit (b : Fin Config.nbank) (k : Fin 32) (s : State) : Out :=
  andThen (regWrite (.rbSetBit b.val k.val) (.set b) (1#32 <<< k.val) s) fun s => .next (noteLevel b k .high s)

/-- The body of RB.clearBit (41 R122). -/
def RB.clearBit (b : Fin Config.nbank) (k : Fin 32) (s : State) : Out :=
  andThen (regWrite (.rbClearBit b.val k.val) (.clr b) (1#32 <<< k.val) s) fun s => .next (noteLevel b k .low s)

/-- RB.setFunction, issued (41 R120, 30 R103). -/
def execRbSetFunction (registerIndex bitOffset functionCode : Int) (s : State) : Out :=
  whenReady s fun s =>
    match finOf Config.nfsel registerIndex, offsetOf bitOffset, codeOf functionCode with
    | some r, some off, some code =>
      andThen (RB.setFunction r off code s)
        (reply (.rbSetFunction registerIndex bitOffset functionCode) .ok .none)
    | _, _, _ => .refused .operandOutOfRange

/-- RB.setBit, issued (41 R121, 30 R103). -/
def execRbSetBit (bankIndex bitPosition : Int) (s : State) : Out :=
  whenReady s fun s =>
    match finOf Config.nbank bankIndex, finOf 32 bitPosition with
    | some b, some k => andThen (RB.setBit b k s) (reply (.rbSetBit bankIndex bitPosition) .ok .none)
    | _, _ => .refused .operandOutOfRange

/-- RB.clearBit, issued (41 R122, 30 R103). -/
def execRbClearBit (bankIndex bitPosition : Int) (s : State) : Out :=
  whenReady s fun s =>
    match finOf Config.nbank bankIndex, finOf 32 bitPosition with
    | some b, some k => andThen (RB.clearBit b k s) (reply (.rbClearBit bankIndex bitPosition) .ok .none)
    | _, _ => .refused .operandOutOfRange

end Sys2Proof.Machine
end

