-- ==== Sys2Proof/Machine/PinDriver.lean ====
section
/-!
DEFINITION. The PinDriver operations (spec 42_pindriver.md).
-/

namespace Sys2Proof.Machine

/-- The body of PD.configureAsOutput (42 R130). -/
def PD.configureAsOutput (p : Fin Config.npins) (s : State) : Out :=
  RB.setFunction (fselIndex p) (fselOffset p) Config.funcOutput s

/-- The body of PD.writeLevel (42 R131). -/
def PD.writeLevel (p : Fin Config.npins) (high : Bool) (s : State) : Out :=
  if high then RB.setBit (bank p) (bit p) s else RB.clearBit (bank p) (bit p) s

/-- PD.configureAsOutput, issued (42 R130). -/
def execPdConfigureAsOutput (pin : Int) (s : State) : Out :=
  whenReady s fun s =>
    match finOf Config.npins pin with
    | some p => andThen (PD.configureAsOutput p s) (reply (.pdConfigureAsOutput pin) .ok .none)
    | none => .refused .operandOutOfRange

/-- PD.writeLevel, issued (42 R131). -/
def execPdWriteLevel (pin : Int) (high : Bool) (s : State) : Out :=
  whenReady s fun s =>
    match finOf Config.npins pin with
    | some p => andThen (PD.writeLevel p high s) (reply (.pdWriteLevel pin high) .ok .none)
    | none => .refused .operandOutOfRange

end Sys2Proof.Machine
end

