-- ==== Sys2Proof/Machine/Engine.lean ====
section
/-!
DEFINITION. The UartTxEngine and bit-timer operations (spec 44_uarttxengine.md).
-/

namespace Sys2Proof.Machine

/-- The body of ENG.arm (44 R151): a no-op unless IDLE with a non-empty buffer. -/
def ENG.arm (s : State) : State :=
  if s.state = .idle ∧ s.buf ≠ [] then { setTimer (s.now + bitPeriod s) s with state := .armed } else s

/-- The body of ENG.cancel (44 R159). -/
def ENG.cancel (s : State) : State := { clearTimer s with frame := none, state := .idle }

/-- Emit the next slot of frame `f`: encode it, store the frame, drive the pin, reschedule by exactly `T`
(44 R153, R155, R156, R160). -/
def emitSlot (due : Time) (f : TxFrame) (s : State) : Out :=
  match ENC.nextBit f with
  | .error r => .refused r
  | .ok (lvl, f') =>
    andThen (PD.writeLevel s.cfg.logicalPin (decide (lvl = .high)) { s with frame := some f' }) fun s =>
      .next (setTimer (due + bitPeriod s) s)

/-- Take the next byte into a fresh frame and emit its start bit (44 R153, R156). -/
def startFrame (due : Time) (s : State) : Out :=
  match MB.dequeue s with
  | none => .refused .emptyBuffer
  | some (b, s) => emitSlot due (ENC.fresh b) s

/-- ENG.tick case A (44 R153). -/
def tickA (due : Time) (s : State) : Out :=
  andThen (startFrame due s) fun s => leaveCallback { s with state := .transmitting }

/-- ENG.tick case B (44 R154). -/
def tickB (s : State) : Out := leaveCallback { s with state := .idle }

/-- ENG.tick case C (44 R155). -/
def tickC (due : Time) (f : TxFrame) (s : State) : Out := andThen (emitSlot due f s) leaveCallback

/-- ENG.tick case D (44 R156). -/
def tickD (due : Time) (s : State) : Out := andThen (startFrame due s) leaveCallback

/-- ENG.tick case E (44 R157). -/
def tickE (s : State) : Out := leaveCallback { s with frame := none, state := .idle }

/-- The choice of the case (44 R152, R158). -/
def tickCases (due : Time) (s : State) : Out :=
  match s.state with
  | .idle => .refused .tickInIdle
  | .armed => if s.buf = [] then tickB s else tickA due s
  | .transmitting =>
    match s.frame with
    | none => .refused .tickWithoutFrame
    | some f => if f.done then (if s.buf = [] then tickE s else tickD due s) else tickC due f s

/-- ENG.arm, issued (44 R151). -/
def execEngArm (s : State) : Out :=
  whenReady s fun s => reply .engArm .ok .none (ENG.arm s)

/-- ENG.cancel, issued (44 R159). -/
def execEngCancel (s : State) : Out :=
  whenReady s fun s => reply .engCancel .ok .none (ENG.cancel s)

/-- ENG.tick, the timer callback (44 R152). No caller issues it, so it leaves no response in the trace. -/
def execEngTick (s : State) : Out :=
  whenReady s fun s => enterCallback s tickCases

/-- TIMER.schedule, issued (44 R161). -/
def execTimerSchedule (due : Time) (s : State) : Out :=
  whenReady s fun s =>
    if due < s.now then .refused .dueBeforeNow
    else reply (.timerSchedule due) .ok .none (setTimer due s)

/-- TIMER.deschedule, issued (44 R162). -/
def execTimerDeschedule (s : State) : Out :=
  whenReady s fun s => reply .timerDeschedule .ok .none (clearTimer s)

end Sys2Proof.Machine
end

