-- ==== Sys2Proof/Machine/DeviceFile.lean ====
section
/-!
DEFINITION. The device-file contract of the excluded front-end (spec 46_lifecycle_and_device_file.md R192 to R195).
-/

namespace Sys2Proof.Machine

/-- DEV.open, issued (46 R192). -/
def execDevOpen (s : State) : Out :=
  whenReady s fun s => reply .devOpen .ok .none { s with openCount := s.openCount + 1 }

/-- DEV.write, issued (46 R193): enqueue the message and, only if that succeeded, arm the engine. -/
def execDevWrite (data : List Byte) (length : Nat) (s : State) : Out :=
  whenReady s fun s =>
    if length ≠ data.length then .refused .operandOutOfRange
    else
      match MB.enqueue (messageText data length) s with
      | (.ok, s) => reply (.devWrite data length) .ok (.count length) (ENG.arm s)
      | (st, s) => reply (.devWrite data length) st .none s

/-- DEV.read, issued (46 R194): the buffer is cleared only after the copy has succeeded. -/
def execDevRead (bufferCapacity : Nat) (copyOk : Bool) (s : State) : Out :=
  whenReady s fun s =>
    let n := min bufferCapacity s.buf.length
    if n > 0 ∧ copyOk = false then reply (.devRead bufferCapacity copyOk) .eFault .none s
    else reply (.devRead bufferCapacity copyOk) .ok (.bytes (s.buf.take n) n) { s with buf := [] }

/-- DEV.close, issued (46 R195): no effect on the block. -/
def execDevClose (s : State) : Out :=
  whenReady s fun s => reply .devClose .ok .none s

end Sys2Proof.Machine
end

