-- ==== Sys2Proof/Machine/Lifecycle.lean ====
section
/-!
DEFINITION. Initialisation and teardown (spec 46_lifecycle_and_device_file.md R190, R191).
-/

namespace Sys2Proof.Machine

/-- The state SYS.init has built before it touches a register (46 R190): configuration stored, bank mapped, buffer and
engine cleared. -/
def SYS.prepare (p : Fin Config.npins) (baud : Nat) (s : State) : State :=
  { s with cfg := ⟨baud, p⟩, mapped := true, buf := [], frame := none, state := .idle, timer := none }

/-- The rest of SYS.init (46 R190): latch HIGH first, then the pin becomes an output, then READY. -/
def SYS.bringUp (p : Fin Config.npins) (baud : Nat) (s : State) : Out :=
  andThen (PD.writeLevel p true (SYS.prepare p baud s)) fun s =>
    andThen (PD.configureAsOutput p s) fun s => .next { s with life := .ready }

/-- The body of SYS.teardown (46 R191): cancel first, then release the mapping. -/
def SYS.teardown (s : State) : State := { ENG.cancel s with mapped := false, life := .down }

/-- SYS.init, issued (46 R190, R196): an operand the caller leaves out has its default, and the baud check comes before the
pin check (60 R221). -/
def execSysInit (pin baud : Option Int) (s : State) : Out :=
  if s.life = .ready then .refused .alreadyReady
  else if baudOrDefault baud ≤ 0 then reply (.sysInit pin baud) .eConfig .none s
  else
    match finOf Config.npins (pinOrDefault pin) with
    | none => reply (.sysInit pin baud) .eConfig .none s
    | some p => andThen (SYS.bringUp p (baudOrDefault baud).toNat s) (reply (.sysInit pin baud) .ok .none)

/-- SYS.teardown, issued (46 R191). -/
def execSysTeardown (s : State) : Out :=
  whenReady s fun s => reply .sysTeardown .ok .none (SYS.teardown s)

end Sys2Proof.Machine
end

