-- ==== Sys2Proof/Machine/Dispatch.lean ====
section
/-!
DEFINITION. The dispatch of an operation to its meaning, one arm per constructor of Instr.
-/

namespace Sys2Proof.Machine

def exec (i : Instr) (s : State) : Host.Outcome State Fault Refusal :=
  match i with
  -- RegisterBank
  | .rbSetFunction r off code => Sys2Proof.Machine.execRbSetFunction r off code s
  | .rbSetBit b k => Sys2Proof.Machine.execRbSetBit b k s
  | .rbClearBit b k => Sys2Proof.Machine.execRbClearBit b k s
  -- PinDriver
  | .pdConfigureAsOutput p => Sys2Proof.Machine.execPdConfigureAsOutput p s
  | .pdWriteLevel p h => Sys2Proof.Machine.execPdWriteLevel p h s
  -- TxFrameEncoder
  | .encFresh b => Sys2Proof.Machine.execEncFresh b s
  | .encNextBit f => Sys2Proof.Machine.execEncNextBit f s
  -- UartTxEngine and bit timer
  | .engArm => Sys2Proof.Machine.execEngArm s
  | .engCancel => Sys2Proof.Machine.execEngCancel s
  | .engTick => Sys2Proof.Machine.execEngTick s
  | .timerSchedule due => Sys2Proof.Machine.execTimerSchedule due s
  | .timerDeschedule => Sys2Proof.Machine.execTimerDeschedule s
  -- MessageBuffer
  | .mbEnqueue bytes => Sys2Proof.Machine.execMbEnqueue bytes s
  | .mbConsume => Sys2Proof.Machine.execMbConsume s
  | .mbIsEmpty => Sys2Proof.Machine.execMbIsEmpty s
  | .mbDequeue => Sys2Proof.Machine.execMbDequeue s
  -- Lifecycle
  | .sysInit pin baud => Sys2Proof.Machine.execSysInit pin baud s
  | .sysTeardown => Sys2Proof.Machine.execSysTeardown s
  -- Device file
  | .devOpen => Sys2Proof.Machine.execDevOpen s
  | .devWrite data length => Sys2Proof.Machine.execDevWrite data length s
  | .devRead cap copyOk => Sys2Proof.Machine.execDevRead cap copyOk s
  | .devClose => Sys2Proof.Machine.execDevClose s

end Sys2Proof.Machine
end

