-- ==== Sys2Proof/Machine/Environment.lean ====
section
/-!
DEFINITION. What the environment does to the block (spec 10_state.md R36, R43, 60_exceptions.md R224, R238), and the
fetch of an issued command.
-/

namespace Sys2Proof.Machine

/-- Time passes to the pending due time, if one is pending and not yet past (10 R36). -/
def toDue (s : State) : State :=
  match s.timer with
  | some due => if s.now ≤ due then { s with now := due } else s
  | none => s

/-- The pending callback fires at its due time (44 R152). -/
def fireTick (s : State) : Out := exec .engTick (toDue s)

/-- No operation is issued: a pending callback is still owed and fires at its due time (70 R270); with none pending no
step is enabled and the state stays as it is (60 R236; log entry 9). -/
def idleStep (s : State) : Out := if callbackPending s then fireTick s else .next s

/-- Time passes until `t`. It never decreases, and it cannot pass a pending due time: the tick fires first, and the rest
of the time still has to pass (10 R36). -/
def elapse (t : Time) (rest : List Event) (s : State) : Out :=
  if t < s.now then .refused .timeRunsBackward
  else
    match s.timer with
    | some due => if due < t then fireTick s else .next { s with now := t, inbox := rest }
    | none => .next { s with now := t, inbox := rest }

/-- Software outside the block writes a function-select register. While READY it must leave the block's own field as it
is (60 R238, 10 R27). The spec does not say whether such a write appears in the trace of 10 R38; here it adds no RegWrite
event (DESIGN CHOICE, unsafe: log entry 21). -/
def outsideFsel (i : Fin Config.nfsel) (v : Word) (rest : List Event) (s : State) : Out :=
  let s' := { s with fsel := s.fsel.set i v, inbox := rest }
  if s.life = .ready ∧ pinField s' ≠ pinField s then .refused .environmentDuty else .next s'

/-- Something outside the block changes a pin's latch. While READY it must not be the block's own pin (60 R238).
The spec does not say whether such a change appears in the trace of 10 R38; here it adds no RegWrite and no Level event, not
even for the block's own pin outside READY (DESIGN CHOICE, unsafe: log entry 21). -/
def outsideLatch (p : Fin Config.npins) (l : Level) (rest : List Event) (s : State) : Out :=
  if s.life = .ready ∧ p = s.cfg.logicalPin then .refused .environmentDuty
  else .next { s with out := s.out.set p l, inbox := rest }

/-- The state in which an issued operation runs: the command has been taken from the inbox; the timer callback is
issued by the expiry of the timer, so time has passed to its due time (30 R105: "each at its due time"). -/
def issued (i : Instr) (rest : List Event) (s : State) : State :=
  match i with
  | .engTick => toDue { s with inbox := rest }
  | _ => { s with inbox := rest }

/-- Decode an issued command and check its context (30 R103, 60 R231). -/
def fetch (ctx : Context) (cmd : Command) : Except Refusal Instr :=
  match decode cmd with
  | .error e => .error (.undecodable e)
  | .ok i => if ctx ∈ i.contexts then .ok i else .error .wrongContext

/-- The context a table word is issued from: the first the table of 60 R231 gives its operation. -/
def contextOfWord (nbits w : Nat) : Context :=
  match decodeTableWord nbits w with
  | some i => i.contexts.headD .process
  | none => .process

end Sys2Proof.Machine
end

