-- ==== Sys2Proof/Machine/Step.lean ====
section
/-!
DEFINITION. One step: the first pending choice of the environment is taken, or, when nothing is pending, the timer.
-/

namespace Sys2Proof.Machine

/-- One atomic step of a run (spec 20_memory.md R70). -/
def step (s : State) : Host.Outcome State Fault Refusal :=
  match s.inbox with
  | [] => idleStep s
  | .elapse t :: rest => elapse t rest s
  | .outsideFsel i v :: rest => outsideFsel i v rest s
  | .outsideLatch p l :: rest => outsideLatch p l rest s
  | .call ctx cmd :: rest =>
    match fetch ctx cmd with
    | .error r => .refused r
    | .ok i => exec i (issued i rest s)

/-- `s` with the table word's operation as the next thing the environment issues, its operands zeros. -/
def State.withFetchWord (s : State) (nbits w : Nat) : State :=
  { s with inbox := .call (contextOfWord nbits w) (zeroCommand (BitVec.ofNat 8 w)) :: s.inbox }

end Sys2Proof.Machine
end

