-- ==== Sys2Proof/Safety.lean ====
section
/-!
DEFINITION. The terms in which claims about the block are made: the assembled block, the invariants of spec
10_state.md R44, the frame as the spec draws it (30_encoding.md R97, R99) and the trace a message leaves.
-/

namespace Sys2Proof

open Sys2Proof.Machine

/-- An operation of the assembled block: one a caller or the timer issues, not a SUB operation of a component-level
test (30 R90). -/
def Instr.assembled (i : Instr) : Bool := decide (i.format ≠ .sub)

/-- An event that does not issue a SUB operation. -/
def Machine.Event.assembled : Event → Bool
  | .call ctx cmd =>
    match fetch ctx cmd with
    | .ok i => i.assembled
    | .error _ => true
  | .elapse _ => true
  | .outsideFsel _ _ => true
  | .outsideLatch _ _ => true

/-- INV1 of 10 R44. -/
def Inv1 (s : State) : Prop := s.buf.length ≤ Config.capacity

/-- INV2 of 10 R44. -/
def Inv2 (s : State) : Prop := s.state = .idle ↔ s.timer = none

/-- INV3 of 10 R44. -/
def Inv3 (s : State) : Prop := s.state = .transmitting ↔ s.frame ≠ none

/-- INV4 of 10 R44. -/
def Inv4 (s : State) : Prop :=
  ∀ f, s.frame = some f → -1 ≤ f.bitIndex ∧ f.bitIndex ≤ 8 ∧ (f.done = true → f.bitIndex = 8)

/-- INV5 of 10 R44. -/
def Inv5 (s : State) : Prop := ∀ f, s.state = .transmitting → s.frame = some f → 0 ≤ f.bitIndex

/-- INV6 of 10 R44. -/
def Inv6 (s : State) : Prop := s.mapped = true ∧ pinField s = Config.funcOutput

/-- INV7 of 10 R44. -/
def Inv7 (s : State) : Prop := ∀ due, s.timer = some due → s.now ≤ due ∧ due ≤ s.now + bitPeriod s

/-- The invariants INV1 to INV7 of a READY block, taken together. -/
def ReadyInv (s : State) : Prop := Inv1 s ∧ Inv2 s ∧ Inv3 s ∧ Inv4 s ∧ Inv5 s ∧ Inv6 s ∧ Inv7 s

/-- The invariant of the assembled block in every phase of its life: no pending event issues a SUB operation, the bit
rate is positive (10 R22), the bank is mapped exactly while READY (10 R26), no callback is scheduled outside READY
(10 R45, 46 R191), and while READY the invariants of 10 R44 hold. -/
def Inv (s : State) : Prop :=
  (∀ e ∈ s.inbox, e.assembled = true) ∧ 0 < s.cfg.bitsPerSecond ∧ (s.mapped = true ↔ s.life = .ready) ∧
    (s.life ≠ .ready → s.timer = none) ∧ (s.life = .ready → ReadyInv s)

/-- The line is HIGH whenever no slot is being sent: INV8 of 10 R44 in the form that every step but a cancel keeps. -/
def IdleHigh (s : State) : Prop :=
  s.life = .ready → (s.state ≠ .transmitting ∨ frameDone s = true) → s.out[s.cfg.logicalPin] = .high

/-- The level of slot `k` of the frame of a byte (30 R97). -/
def slotLevel (b : Byte) (k : Nat) : Level :=
  if k = 0 then .low else if k ≤ 8 then levelOf (b.getLsbD (k - 1)) else .high

/-- `frameLevels(b)` (43 R143): the ten levels in transmission order. -/
def frameLevels (b : Byte) : List Level := (List.range 10).map (slotLevel b)

/-- `frameWord(b) = 0x200 | (b << 1)` (30 R99). -/
def frameWord (b : Byte) : BitVec 10 := 0x200#10 ||| (b.zeroExtend 10 <<< 1)

/-- Apply ENC.nextBit `n` times: the levels it gives and the frame it ends in, or none if it refuses. -/
def emit : Nat → TxFrame → Option (List Level × TxFrame)
  | 0, f => some ([], f)
  | n + 1, f =>
    match ENC.nextBit f with
    | .error _ => none
    | .ok (l, f') =>
      match emit n f' with
      | none => none
      | some (ls, f'') => some (l :: ls, f'')

/-- The two trace events of one pin write to level `l` at time `t` (41 R121, R122). -/
def pinWrite (p : Fin Config.npins) (t : Time) (l : Level) : List Stamped :=
  [⟨t, .regWrite (match l with | .high => .set (bank p) | .low => .clr (bank p)) (1#32 <<< (p.val % 32))⟩,
   ⟨t, .level l⟩]

/-- The trace of a sequence of slots, the first at time `t`, one every `T`. -/
def slotTrace (p : Fin Config.npins) (T : Time) : Time → List Level → List Stamped
  | _, [] => []
  | t, l :: ls => pinWrite p t l ++ slotTrace p T (t + T) ls

/-- `frameLevels(b1) ++ ... ++ frameLevels(bn)` (44 R165). -/
def messageLevels (bs : List Byte) : List Level := bs.flatMap frameLevels

/-- `s` and `t` differ at most in the observation trace. -/
def SameButTrace (s t : State) : Prop := { s with trace := [] } = { t with trace := [] }

/-- A trace event is an access to the register bank. -/
def Machine.TraceEvent.isAccess : TraceEvent → Bool
  | .regRead _ => true
  | .regWrite _ _ => true
  | .level _ => false
  | .resp _ _ _ => false

/-- A trace event is a write to the register bank. -/
def Machine.TraceEvent.isWrite : TraceEvent → Bool
  | .regWrite _ _ => true
  | .regRead _ => false
  | .level _ => false
  | .resp _ _ _ => false

/-- A command with this selector and these operands is the operation `i`, which has the format `f` (one row of 30 R91
with the operands of R92). -/
def ReadsAs (selector : Byte) (operands : List Operand) (i : Instr) (f : Format) : Prop :=
  decode ⟨selector, operands⟩ = .ok i ∧ i.format = f

/-- The operation is issued: it ends with the state `t` and this answer to its caller (00 R8, R9). -/
def Answers (i : Instr) (s : State) (st : Status) (res : Result) (t : State) : Prop :=
  exec i s = .next (record (.resp i st res) t)

/-- The word `new` is `old` with the 3-bit field at bits `off` to `off + 2` holding `code` (41 R120). -/
def FieldChanged (old new : Word) (off : Nat) (code : BitVec 3) : Prop :=
  ∀ j, j < 32 → new.getLsbD j = if off ≤ j ∧ j < off + 3 then code.getLsbD (j - off) else old.getLsbD j

/-- The number a list of decimal digits writes (30 R101). -/
def decimalValue (digits : List Byte) : Nat := digits.foldl (fun v d => 10 * v + (d.toNat - 0x30)) 0

/-- A command that is the operation `i`. -/
def Machine.Event.isCall (e : Event) (i : Instr) : Prop := ∃ ctx cmd, e = .call ctx cmd ∧ decode cmd = .ok i

/-- A safe outcome: the step did not fault. -/
def NoFault (o : Out) : Prop := ∀ f, o ≠ .fault f

/-- What a physical realisation has to meet (70 R268): its `k`-th tick after an arm at `t0` comes within
`BIT_PERIOD_TOL` of `t0 + k * T`. The model's own ticks come at exactly that time. -/
def onTime (T t0 : Time) (k : Nat) (actual : Time) : Prop :=
  actual - (t0 + k * T) ≤ Config.bitPeriodTol ∧ (t0 + k * T) - actual ≤ Config.bitPeriodTol

end Sys2Proof
end

