-- ==== Sys2Proof/Certificates/Slice0/Obligations.lean ====
section
/-!
DEFINITION. The statements for the provers. Each docstring names the rule of spec/ it formalises. A statement about
the next state of an operation gives the whole next state, so it is the operation's frame as well.
-/

open Sys2Proof Sys2Proof.Machine

/-! ## Encoding and the step -/

/-- 30 R91 with the operands of R92: every row of the selector table, for all operand values, with its format; every
other selector is refused, whatever stands beside it. -/
def Obligations.SelectorTableDecodes : Prop :=
  (∀ r off code, ReadsAs 0x10#8 [.int r, .int off, .int code] (.rbSetFunction r off code) .sub) ∧
  (∀ b k, ReadsAs 0x11#8 [.int b, .int k] (.rbSetBit b k) .sub) ∧
  (∀ b k, ReadsAs 0x12#8 [.int b, .int k] (.rbClearBit b k) .sub) ∧
  (∀ p, ReadsAs 0x20#8 [.int p] (.pdConfigureAsOutput p) .sub) ∧
  (∀ p h, ReadsAs 0x21#8 [.int p, .flag h] (.pdWriteLevel p h) .sub) ∧
  (∀ b, ReadsAs 0x30#8 [.byte b] (.encFresh b) .sub) ∧
  (∀ f, ReadsAs 0x31#8 [.frame f] (.encNextBit f) .sub) ∧
  ReadsAs 0x40#8 [] .engArm .cmd ∧
  ReadsAs 0x41#8 [] .engCancel .cmd ∧
  ReadsAs 0x42#8 [] .engTick .evt ∧
  (∀ d, ReadsAs 0x43#8 [.time d] (.timerSchedule d) .sub) ∧
  ReadsAs 0x44#8 [] .timerDeschedule .sub ∧
  (∀ bs, ReadsAs 0x50#8 [.bytes bs] (.mbEnqueue bs) .cmd) ∧
  ReadsAs 0x51#8 [] .mbConsume .cmd ∧
  ReadsAs 0x52#8 [] .mbIsEmpty .cmd ∧
  ReadsAs 0x53#8 [] .mbDequeue .sub ∧
  (∀ p b, ReadsAs 0x60#8 [.int p, .int b] (.sysInit (some p) (some b)) .cmd) ∧
  ReadsAs 0x61#8 [] .sysTeardown .cmd ∧
  ReadsAs 0x70#8 [] .devOpen .dev ∧
  (∀ d n, ReadsAs 0x71#8 [.bytes d, .nat n] (.devWrite d n) .dev) ∧
  (∀ c ok, ReadsAs 0x72#8 [.nat c, .flag ok] (.devRead c ok) .dev) ∧
  ReadsAs 0x73#8 [] .devClose .dev ∧
  (∀ b : Byte, b.toNat ∉ [0x10, 0x11, 0x12, 0x20, 0x21, 0x30, 0x31, 0x40, 0x41, 0x42, 0x43, 0x44, 0x50, 0x51, 0x52,
      0x53, 0x60, 0x61, 0x70, 0x71, 0x72, 0x73] →
    ∀ ops, decode ⟨b, ops⟩ = .error (.unassignedSelector b))

/-- 30 R91, R92: decoder and encoder agree in both directions, so no selector or operand is dropped or added and no
command has two readings. It holds for every operation, the well-formed ones among them. -/
def Obligations.DecodeInvertsEncode : Prop :=
  ∀ c i, decode c = .ok i ↔ c = encode i

/-- A few words written out from 30 R91 and R92, with the operands of spec 95 part 2 and part 3. That a SYS.init
whose caller gives no operand is a command without operands is the model's choice (log entry 20, DESIGN CHOICE). -/
def Obligations.SampleWordsDecode : Prop :=
  decode ⟨0b00010000#8, [.int 0, .int 12, .int 1]⟩ = .ok (.rbSetFunction 0 12 1) ∧
  decode ⟨0b00100001#8, [.int 4, .flag true]⟩ = .ok (.pdWriteLevel 4 true) ∧
  decode ⟨0b00110001#8, [.frame ⟨0xB2#8, 1, false⟩]⟩ = .ok (.encNextBit ⟨0xB2#8, 1, false⟩) ∧
  decode ⟨0b01000010#8, []⟩ = .ok .engTick ∧
  decode ⟨0b01010000#8, [.bytes [0xB2#8]]⟩ = .ok (.mbEnqueue [0xB2#8]) ∧
  decode ⟨0b01100000#8, [.int 4, .int 4800]⟩ = .ok (.sysInit (some 4) (some 4800)) ∧
  decode ⟨0b01100000#8, []⟩ = .ok (.sysInit none none) ∧
  decode ⟨0b01110010#8, [.nat 64, .flag true]⟩ = .ok (.devRead 64 true)

/-- A step runs the decoded operation. Around `exec` it does three things: it takes the command from the inbox, it checks
the context table, and for ENG.tick, which the expiry of the timer issues, time has passed to the due time. -/
def Obligations.StepRunsTheDecodedOperation : Prop :=
  ∀ (s : State) (ctx : Context) (cmd : Command) (rest : List Event), s.inbox = .call ctx cmd :: rest →
    (∀ i, decode cmd = .ok i → ctx ∈ i.contexts →
      step s = exec i (issued i rest s) ∧ (i ≠ .engTick → issued i rest s = { s with inbox := rest }) ∧
        (∀ due, i = .engTick → s.timer = some due → s.now ≤ due →
          issued i rest s = { s with inbox := rest, now := due })) ∧
    (∀ i, decode cmd = .ok i → ctx ∉ i.contexts → step s = .refused .wrongContext) ∧
    (∀ e, decode cmd = .error e → step s = .refused (.undecodable e))

/-- 60 R231: the context table, operation by operation. For PD.configureAsOutput and RB.setFunction, which R231 gives
process context during SYS.init only, process context at any time is the model's choice, for component-level tests (log
entry 13, DESIGN CHOICE). -/
def Obligations.ContextTable : Prop :=
  (∀ (i : Instr) (ctx : Context), ctx ∈ i.contexts ↔
    match i, ctx with
    | .engTick, .process => False
    | .mbDequeue, .process => False
    | .encFresh _, .process => False
    | .encNextBit _, .process => False
    | _, .process => True
    | .engTick, .callback => True
    | .mbDequeue, .callback => True
    | .encFresh _, .callback => True
    | .encNextBit _, .callback => True
    | .mbIsEmpty, .callback => True
    | .timerSchedule _, .callback => True
    | .pdWriteLevel _ _, .callback => True
    | .rbSetBit _ _, .callback => True
    | .rbClearBit _ _, .callback => True
    | _, .callback => False) ∧
  ∀ (s t : State) (ctx : Context) (i : Instr) (rest : List Event), s.inbox = .call ctx (encode i) :: rest →
    step s = .next t → ctx ∈ i.contexts

/-- 10 R36, 60 R226: time never decreases in a step, and no step passes a pending due time: when the environment lets time
run past it, the tick fires at its due time first. -/
def Obligations.TimeNeverPassesADueTick : Prop :=
  (∀ s t : State, step s = .next t →
    s.now ≤ t.now ∧ ∀ due, s.timer = some due → s.now ≤ due → t.now ≤ due) ∧
  ∀ (s : State) (due u : Time) (rest : List Event), s.timer = some due → s.now ≤ due → s.inbox = .elapse u :: rest →
    due < u → step s = exec .engTick { s with now := due }

/-- 70 R270, 60 R236: with nothing issued and no callback pending no step is enabled and the state stays; a pending
callback is still owed and fires at its due time. The standing still is the model's choice (log entry 9). -/
def Obligations.IdleBlockTakesNoStep : Prop :=
  ∀ s : State, s.inbox = [] →
    (s.timer = none → step s = .next s) ∧
    (∀ due, s.timer = some due → s.now ≤ due → step s = exec .engTick { s with now := due })

/-- 60 R238, 10 R27: what software outside the block writes never reaches the block's own function field or latch while
READY (such a write is refused as a broken duty), and every other field and latch may take any value. The events, and that
they add nothing to the trace, are the model's choices (log entries 1, 13 and 21). -/
def Obligations.OutsideWritesSpareTheBlock : Prop :=
  ∀ (s : State) (rest : List Event), s.life = .ready →
    (∀ i v, s.inbox = .outsideFsel i v :: rest →
      step s = if pinField { s with fsel := s.fsel.set i v } = pinField s
        then .next { s with fsel := s.fsel.set i v, inbox := rest } else .refused .environmentDuty) ∧
    (∀ p l, s.inbox = .outsideLatch p l :: rest →
      step s = if p = s.cfg.logicalPin then .refused .environmentDuty
        else .next { s with out := s.out.set p l, inbox := rest }) ∧
    (∀ i v, s.inbox = .outsideFsel i v :: rest → i ≠ fselIndex s.cfg.logicalPin →
      step s = .next { s with fsel := s.fsel.set i v, inbox := rest })

/-! ## Refusals and errors -/

/-- 60 R219, item by item, and what the model adds to it: the refusal of TIMER.schedule before now is the model's reading of
44 R161 (log entry 16, DEDUCED), and that an access to no register or of a bad form is refused also with the bank unmapped,
where 20 R67 tests `mapped` first, is the model's choice of order (log entry 18, DESIGN CHOICE). -/
def Obligations.RefusalsAreByName : Prop :=
  (∀ i (s : State), s.life ≠ .ready → (∀ p b, i ≠ .sysInit p b) → exec i s = .refused .notReady) ∧
  (∀ p b (s : State), s.life = .ready → exec (.sysInit p b) s = .refused .alreadyReady) ∧
  (∀ i (s : State), s.life = .ready → i.wf = false → (∀ f, i = .encNextBit f → f.done = false) →
    exec i s = .refused .operandOutOfRange) ∧
  (∀ due (s : State), s.life = .ready → due < s.now → exec (.timerSchedule due) s = .refused .dueBeforeNow) ∧
  (∀ f (s : State), s.life = .ready → f.done = true → exec (.encNextBit f) s = .refused .frameDone) ∧
  (∀ s : State, s.life = .ready → s.buf = [] → exec .mbDequeue s = .refused .emptyBuffer) ∧
  (∀ op b (s : State) k, s.mapped = true →
    regRead op (.set b) s k = .refused .strobeRead ∧ regRead op (.clr b) s k = .refused .strobeRead) ∧
  (∀ op addr (s : State) k v, addr % 4 = 0 → (∀ r, regAddr r ≠ addr) →
    memRead op addr 4 s k = .refused .noSuchRegister ∧ memWrite op addr 4 v s = .refused .noSuchRegister) ∧
  (∀ op addr size (s : State) k v, ¬(size = 4 ∧ addr % 4 = 0) →
    memRead op addr size s k = .refused .badAccess ∧ memWrite op addr size v s = .refused .badAccess) ∧
  (∀ (s : State) ctx b ops rest, b ∉ selectorTable.map Prod.fst → s.inbox = .call ctx ⟨b, ops⟩ :: rest →
    step s = .refused (.undecodable (.unassignedSelector b)))

/-- 60 R220: an operation that returns an error status has changed no state; only its answer is in the trace. -/
def Obligations.ErrorsChangeNothing : Prop :=
  ∀ (i : Instr) (s t : State) (es : List Stamped) (st : Status) (res : Result), exec i s = .next t →
    t.trace = s.trace ++ es → ⟨s.now, .resp i st res⟩ ∈ es → st ≠ .ok →
    t = record (.resp i st res) s ∧ res = .none

/-- 60 R221: the first failing check decides, and a refusal is tested before any error. -/
def Obligations.FirstFailingCheckDecides : Prop :=
  (∀ (i : Instr) (s : State), s.life ≠ .ready → (∀ p b, i ≠ .sysInit p b) → exec i s = .refused .notReady) ∧
  (∀ (s : State) (pin baud : Option Int), s.life = .ready → exec (.sysInit pin baud) s = .refused .alreadyReady) ∧
  (∀ (s : State) (data : List Byte) (n : Nat), s.life = .ready → n ≠ data.length →
    exec (.devWrite data n) s = .refused .operandOutOfRange) ∧
  (∀ (s : State) (bytes : List Byte), s.life = .ready → 256 < bytes.length →
    Answers (.mbEnqueue bytes) s .eOversize .none s) ∧
  (∀ (s : State) (bytes : List Byte), s.life = .ready → bytes.length ≤ 256 → s.state ≠ .idle →
    Answers (.mbEnqueue bytes) s .eBusy .none s) ∧
  (∀ (s : State) (data : List Byte), s.life = .ready → 256 < data.length + (dec data.length).length + 10 →
    Answers (.devWrite data data.length) s .eOversize .none s) ∧
  (∀ (s : State) (data : List Byte), s.life = .ready → data.length + (dec data.length).length + 10 ≤ 256 →
    s.state ≠ .idle → Answers (.devWrite data data.length) s .eBusy .none s) ∧
  (∀ (s : State) (pin : Option Int) (baud : Int), s.life ≠ .ready → baud ≤ 0 →
    Answers (.sysInit pin (some baud)) s .eConfig .none s) ∧
  (∀ (s : State) (pin : Int) (baud : Option Int), s.life ≠ .ready → (∀ b, baud = some b → 0 < b) → (pin < 0 ∨ 54 ≤ pin) →
    Answers (.sysInit (some pin) baud) s .eConfig .none s) ∧
  (∀ (s t : State) (cap : Nat) (ok : Bool) (es : List Stamped) (st : Status) (res : Result),
    exec (.devRead cap ok) s = .next t → t.trace = s.trace ++ es → ⟨s.now, .resp (.devRead cap ok) st res⟩ ∈ es →
    st = .ok ∨ st = .eFault)

/-- 60 R237: while READY every CMD or DEV operation with legal operands is answered, whatever the engine is doing, and a
tick that is due runs. (SYS.init is the exception the rule of 46 R190 makes: a second init is refused.) -/
def Obligations.BlockAnswersEveryCaller : Prop :=
  ∀ s : State, Inv s → s.life = .ready →
    (∀ i : Instr, (i.format = .cmd ∨ i.format = .dev) → i.wf = true → (∀ p b, i ≠ .sysInit p b) →
      ∃ t, exec i s = .next t) ∧
    (s.timer = some s.now → ∃ t, exec .engTick s = .next t)

/-! ## RegisterBank -/

/-- 41 R120: out of range operands are refused; with the bank unmapped the operation faults; else exactly the field
changes, one read and one write are made, and the caller gets no value. -/
def Obligations.SetFunctionWritesOneField : Prop :=
  ((encode (.rbSetFunction 0 0 0)).selector = 0x10#8 ∧ ∀ r off code, (Instr.rbSetFunction r off code).format = .sub) ∧
  (∀ (s : State) (r off code : Int), s.life = .ready →
    ¬(0 ≤ r ∧ r < 6 ∧ 0 ≤ off ∧ off ≤ 27 ∧ off % 3 = 0 ∧ 0 ≤ code ∧ code ≤ 7) →
    exec (.rbSetFunction r off code) s = .refused .operandOutOfRange) ∧
  ∀ (s : State) (r : Fin Config.nfsel) (k : Fin 10) (code : BitVec 3), s.life = .ready →
    let op : Instr := .rbSetFunction (r.val : Nat) (3 * k.val : Nat) (code.toNat : Nat)
    (s.mapped = false → exec op s = .fault (.unmapped (.fsel r) op)) ∧
    (s.mapped = true → ∃ new : Word, FieldChanged s.fsel[r] new (3 * k.val) code ∧
      Answers op s .ok .none { s with
        fsel := s.fsel.set r new
        trace := s.trace ++ [⟨s.now, .regRead (.fsel r)⟩, ⟨s.now, .regWrite (.fsel r) new⟩] })

/-- 41 R121. -/
def Obligations.SetBitRaisesOnePin : Prop :=
  ((encode (.rbSetBit 0 0)).selector = 0x11#8 ∧ ∀ b k, (Instr.rbSetBit b k).format = .sub) ∧
  (∀ (s : State) (b k : Int), s.life = .ready → ¬(0 ≤ b ∧ b < 2 ∧ 0 ≤ k ∧ k < 32) →
    exec (.rbSetBit b k) s = .refused .operandOutOfRange) ∧
  ∀ (s : State) (b : Fin Config.nbank) (k : Fin 32), s.life = .ready →
    let op : Instr := .rbSetBit (b.val : Nat) (k.val : Nat)
    (s.mapped = false → exec op s = .fault (.unmapped (.set b) op)) ∧
    (s.mapped = true → ∃ out : Vector Level Config.npins,
      (∀ p : Fin Config.npins, out[p] = if p.val = 32 * b.val + k.val then .high else s.out[p]) ∧
      Answers op s .ok .none { s with
        out := out
        trace := s.trace ++ ⟨s.now, .regWrite (.set b) (1#32 <<< k.val)⟩ ::
          (if 32 * b.val + k.val = s.cfg.logicalPin.val then [⟨s.now, .level .high⟩] else []) })

/-- 41 R122. -/
def Obligations.ClearBitLowersOnePin : Prop :=
  ((encode (.rbClearBit 0 0)).selector = 0x12#8 ∧ ∀ b k, (Instr.rbClearBit b k).format = .sub) ∧
  (∀ (s : State) (b k : Int), s.life = .ready → ¬(0 ≤ b ∧ b < 2 ∧ 0 ≤ k ∧ k < 32) →
    exec (.rbClearBit b k) s = .refused .operandOutOfRange) ∧
  ∀ (s : State) (b : Fin Config.nbank) (k : Fin 32), s.life = .ready →
    let op : Instr := .rbClearBit (b.val : Nat) (k.val : Nat)
    (s.mapped = false → exec op s = .fault (.unmapped (.clr b) op)) ∧
    (s.mapped = true → ∃ out : Vector Level Config.npins,
      (∀ p : Fin Config.npins, out[p] = if p.val = 32 * b.val + k.val then .low else s.out[p]) ∧
      Answers op s .ok .none { s with
        out := out
        trace := s.trace ++ ⟨s.now, .regWrite (.clr b) (1#32 <<< k.val)⟩ ::
          (if 32 * b.val + k.val = s.cfg.logicalPin.val then [⟨s.now, .level .low⟩] else []) })

/-- 10 R28, 70 R256: a word written to a strobe moves the latch of exactly the existing pins whose bit is 1 and stores
nothing else, a strobe cannot be read, and no operation of the block writes a strobe word with other than one bit. -/
def Obligations.StrobeWordsMoveTheirPins : Prop :=
  (∀ (s : State) (op : Instr) (b : Fin Config.nbank) (m : Word), s.mapped = true →
    (∃ out : Vector Level Config.npins,
      (∀ p : Fin Config.npins, out[p] = if p.val / 32 = b.val ∧ m.getLsbD (p.val % 32) = true then .high else s.out[p]) ∧
      regWrite op (.set b) m s = .next { s with out := out, trace := s.trace ++ [⟨s.now, .regWrite (.set b) m⟩] }) ∧
    (∃ out : Vector Level Config.npins,
      (∀ p : Fin Config.npins, out[p] = if p.val / 32 = b.val ∧ m.getLsbD (p.val % 32) = true then .low else s.out[p]) ∧
      regWrite op (.clr b) m s = .next { s with out := out, trace := s.trace ++ [⟨s.now, .regWrite (.clr b) m⟩] }) ∧
    ∀ k, regRead op (.set b) s k = .refused .strobeRead ∧ regRead op (.clr b) s k = .refused .strobeRead) ∧
  ∀ (i : Instr) (s t : State) (es : List Stamped) (b : Fin Config.nbank) (m : Word) (at_ : Time),
    exec i s = .next t → t.trace = s.trace ++ es →
    (⟨at_, .regWrite (.set b) m⟩ ∈ es ∨ ⟨at_, .regWrite (.clr b) m⟩ ∈ es) → ∃ k, k < 32 ∧ m = 1#32 <<< k

/-- 20 R61, R62 and the primitives MemRead and MemWrite of 00 R8: each register answers at its own word-aligned address, no
two registers share one, and an access there is the access by kind and index, for every word-aligned value of the OPEN base.
That the base is word aligned is the model's (log entry 7, PRESUMED). -/
def Obligations.RegistersAnswerAtTheirAddresses : Prop :=
  (∀ i : Fin Config.nfsel, regAddr (.fsel i) = Config.gpioBase + 4 * i.val) ∧
  (∀ b : Fin Config.nbank, regAddr (.set b) = Config.gpioBase + 0x1C + 4 * b.val) ∧
  (∀ b : Fin Config.nbank, regAddr (.clr b) = Config.gpioBase + 0x28 + 4 * b.val) ∧
  (∀ r r', regAddr r = regAddr r' → r = r') ∧
  ∀ (r : Reg) (op : Instr) (s : State) (v : Word) (k : Word → State → Out), regAddr r % 4 = 0 ∧
    memRead op (regAddr r) 4 s k = regRead op r s k ∧ memWrite op (regAddr r) 4 v s = regWrite op r v s

/-- 20 R67, 60 R217: with the bank unmapped every access faults with its register and operation, and the fault ends every
run (it is never cleared); from a state that meets the invariant of the assembled block, no step faults. -/
def Obligations.UnmappedAccessFaultsAndIsUnreachable : Prop :=
  (∀ (s : State) (r : Reg) (op : Instr) (v : Word) (k : Word → State → Out), s.mapped = false →
    regRead op r s k = .fault (.unmapped r op) ∧ regWrite op r v s = .fault (.unmapped r op) ∧
    memRead op (regAddr r) 4 s k = .fault (.unmapped r op) ∧ memWrite op (regAddr r) 4 v s = .fault (.unmapped r op)) ∧
  (∀ (s : State) (f : Fault) (n : Nat), step s = .fault f → core.run (n + 1) s = .fault f) ∧
  (∀ (s : State) (due : Time), s.life = .ready → s.mapped = false → s.timer = some due → s.now = due →
    s.state = .armed → s.buf ≠ [] → ∃ op, exec .engTick s = .fault (.unmapped (.clr (bank s.cfg.logicalPin)) op)) ∧
  ∀ s : State, Inv s → NoFault (step s)

/-! ## PinDriver -/

/-- 42 R130. That the fault names RB.setFunction, which made the access, and not the operation issued is the model's reading
of 60 R217 (log entry 15, DEDUCED). -/
def Obligations.ConfigureAsOutputWritesThePinsField : Prop :=
  ((encode (.pdConfigureAsOutput 0)).selector = 0x20#8 ∧ ∀ p, (Instr.pdConfigureAsOutput p).format = .sub) ∧
  (∀ (s : State) (p : Int), s.life = .ready → ¬(0 ≤ p ∧ p < 54) →
    exec (.pdConfigureAsOutput p) s = .refused .operandOutOfRange) ∧
  ∀ (s : State) (p : Fin Config.npins) (r : Fin Config.nfsel), s.life = .ready → r.val = p.val / 10 →
    (s.mapped = false → exec (.pdConfigureAsOutput (p.val : Nat)) s =
      .fault (.unmapped (.fsel r) (.rbSetFunction (p.val / 10 : Nat) ((p.val % 10) * 3 : Nat) 1))) ∧
    (s.mapped = true → ∃ new : Word, FieldChanged s.fsel[r] new ((p.val % 10) * 3) 0b001#3 ∧
      Answers (.pdConfigureAsOutput (p.val : Nat)) s .ok .none { s with
        fsel := s.fsel.set r new
        trace := s.trace ++ [⟨s.now, .regRead (.fsel r)⟩, ⟨s.now, .regWrite (.fsel r) new⟩] })

/-- 42 R131. That the fault names RB.setBit or RB.clearBit, which made the access, and not the operation issued is the model's
reading of 60 R217 (log entry 15, DEDUCED). -/
def Obligations.WriteLevelDrivesThePin : Prop :=
  ((encode (.pdWriteLevel 0 true)).selector = 0x21#8 ∧ ∀ p h, (Instr.pdWriteLevel p h).format = .sub) ∧
  (∀ (s : State) (p : Int) (h : Bool), s.life = .ready → ¬(0 ≤ p ∧ p < 54) →
    exec (.pdWriteLevel p h) s = .refused .operandOutOfRange) ∧
  ∀ (s : State) (p : Fin Config.npins) (h : Bool) (b : Fin Config.nbank), s.life = .ready → b.val = p.val / 32 →
    let reg : Reg := if h then .set b else .clr b
    let l : Level := if h then .high else .low
    let op : Instr := if h then .rbSetBit (p.val / 32 : Nat) (p.val % 32 : Nat)
      else .rbClearBit (p.val / 32 : Nat) (p.val % 32 : Nat)
    (s.mapped = false → exec (.pdWriteLevel (p.val : Nat) h) s = .fault (.unmapped reg op)) ∧
    (s.mapped = true → Answers (.pdWriteLevel (p.val : Nat) h) s .ok .none { s with
      out := s.out.set p l
      trace := s.trace ++ ⟨s.now, .regWrite reg (1#32 <<< (p.val % 32))⟩ ::
        (if p = s.cfg.logicalPin then [⟨s.now, .level l⟩] else []) })

/-! ## TxFrameEncoder -/

/-- 43 R140. -/
def Obligations.FreshFrameStandsAtTheStart : Prop :=
  (∀ b, (encode (.encFresh b)).selector = 0x30#8 ∧ (Instr.encFresh b).format = .sub) ∧
  ∀ (s : State) (b : Byte), s.life = .ready →
    Answers (.encFresh b) s .ok (.frame { byte := b, bitIndex := -1, done := false }) s

/-- 43 R141, for every legal frame: the start bit, each data bit, the stop bit, and the finished frame. -/
def Obligations.NextBitEmitsOneSlot : Prop :=
  (∀ f, (encode (.encNextBit f)).selector = 0x31#8 ∧ (Instr.encNextBit f).format = .sub) ∧
  ∀ (s : State) (b : Byte), s.life = .ready →
    Answers (.encNextBit ⟨b, -1, false⟩) s .ok (.levelFrame .low ⟨b, 0, false⟩) s ∧
    (∀ k : Nat, k ≤ 7 → Answers (.encNextBit ⟨b, k, false⟩) s .ok
      (.levelFrame (if (b >>> k) &&& 1#8 = 1#8 then .high else .low) ⟨b, k + 1, false⟩) s) ∧
    Answers (.encNextBit ⟨b, 8, false⟩) s .ok (.levelFrame .high ⟨b, 8, true⟩) s ∧
    ∀ j, exec (.encNextBit ⟨b, j, true⟩) s = .refused .frameDone

/-- 43 R143, 30 R99: ten slots of ENC.nextBit from a fresh frame are the frame of the byte, the frames passed through stand
at -1, 0, ..., 8, and the ten levels are the bits of `frameWord`. -/
def Obligations.TenSlotsMakeAFrame : Prop :=
  ∀ b : Byte,
    emit 10 (ENC.fresh b) =
      some ([.low, levelOf (b.getLsbD 0), levelOf (b.getLsbD 1), levelOf (b.getLsbD 2), levelOf (b.getLsbD 3),
        levelOf (b.getLsbD 4), levelOf (b.getLsbD 5), levelOf (b.getLsbD 6), levelOf (b.getLsbD 7), .high],
        { byte := b, bitIndex := 8, done := true }) ∧
    (∀ k, k ≤ 9 → ∃ ls, ls.length = k ∧
      emit k (ENC.fresh b) = some (ls, { byte := b, bitIndex := (k : Int) - 1, done := false })) ∧
    (∀ k, k < 10 → (frameLevels b)[k]? = some (levelOf ((frameWord b).getLsbD k))) ∧
    emit 11 (ENC.fresh b) = none

/-! ## UartTxEngine and bit timer -/

/-- 44 R151. -/
def Obligations.ArmSchedulesTheFirstCallback : Prop :=
  ((encode .engArm).selector = 0x40#8 ∧ Instr.engArm.format = .cmd ∧ Instr.engArm.contexts = [.process]) ∧
  (∀ s : State, s.life ≠ .ready → exec .engArm s = .refused .notReady) ∧
  ∀ s : State, s.life = .ready →
    (s.state = .idle → s.buf ≠ [] → Answers .engArm s .ok .none
      { s with timer := some (s.now + 1 / (s.cfg.bitsPerSecond : Rat)), state := .armed }) ∧
    (s.state ≠ .idle ∨ s.buf = [] → Answers .engArm s .ok .none s)

/-- 44 R153, case A: the whole next state. -/
def Obligations.TickStartsTheFirstFrame : Prop :=
  ∀ (s : State) (b : Byte) (rest : List Byte), s.life = .ready → s.mapped = true → s.timer = some s.now →
    s.state = .armed → s.buf = b :: rest →
    exec .engTick s = .next { s with
      buf := rest
      frame := some ⟨b, 0, false⟩
      out := s.out.set s.cfg.logicalPin .low
      timer := some (s.now + 1 / (s.cfg.bitsPerSecond : Rat))
      state := .transmitting
      trace := s.trace ++
        [⟨s.now, .regWrite (.clr (bank s.cfg.logicalPin)) (1#32 <<< (s.cfg.logicalPin.val % 32))⟩, ⟨s.now, .level .low⟩] }

/-- 44 R154, case B: back to IDLE, nothing else. -/
def Obligations.TickWithNothingToSendIdles : Prop :=
  ∀ s : State, s.life = .ready → s.timer = some s.now → s.state = .armed → s.buf = [] →
    exec .engTick s = .next { s with timer := none, state := .idle }

/-- 44 R155, case C: the next slot of the frame, whichever it is, and the reschedule, also after the stop bit. -/
def Obligations.TickSendsTheNextSlot : Prop :=
  ∀ (s : State) (f : TxFrame), s.life = .ready → s.mapped = true → s.timer = some s.now → s.state = .transmitting →
    s.frame = some f → f.done = false → -1 ≤ f.bitIndex → f.bitIndex ≤ 8 →
    let l : Level := if f.bitIndex = -1 then .low else if f.bitIndex = 8 then .high
      else if f.byte.getLsbD f.bitIndex.toNat then .high else .low
    exec .engTick s = .next { s with
      frame := some (if f.bitIndex = 8 then ⟨f.byte, 8, true⟩ else ⟨f.byte, f.bitIndex + 1, false⟩)
      out := s.out.set s.cfg.logicalPin l
      timer := some (s.now + 1 / (s.cfg.bitsPerSecond : Rat))
      trace := s.trace ++ pinWrite s.cfg.logicalPin s.now l }

/-- 44 R156, case D: the next frame starts in the tick that ends the stop bit, with no gap. -/
def Obligations.TickStartsTheNextFrame : Prop :=
  ∀ (s : State) (f : TxFrame) (b : Byte) (rest : List Byte), s.life = .ready → s.mapped = true →
    s.timer = some s.now → s.state = .transmitting → s.frame = some f → f.done = true → s.buf = b :: rest →
    exec .engTick s = .next { s with
      buf := rest
      frame := some ⟨b, 0, false⟩
      out := s.out.set s.cfg.logicalPin .low
      timer := some (s.now + 1 / (s.cfg.bitsPerSecond : Rat))
      trace := s.trace ++ pinWrite s.cfg.logicalPin s.now .low }

/-- 44 R157, case E: finished; the pin is not written, and the line stays HIGH, the level of the stop bit. -/
def Obligations.TickFinishesTheMessage : Prop :=
  ∀ (s : State) (f : TxFrame), s.life = .ready → s.timer = some s.now → s.state = .transmitting →
    s.frame = some f → f.done = true → s.buf = [] →
    exec .engTick s = .next { s with timer := none, frame := none, state := .idle } ∧
    ∀ t, exec .engTick s = .next t → line t = line s ∧ (Inv s → IdleHigh s → line t = .driven .high)

/-- 44 R152, R158: a tick runs exactly when a callback is scheduled for this very time; without one it is refused, and in
IDLE it has no effect, it is refused. -/
def Obligations.TickRunsExactlyWhenDue : Prop :=
  (∀ s : State, Inv s → ((∃ t, exec .engTick s = .next t) ↔ s.life = .ready ∧ s.timer = some s.now)) ∧
  (∀ s : State, s.life = .ready → s.timer ≠ some s.now → exec .engTick s = .refused .tickNotEnabled) ∧
  (∀ s : State, s.life = .ready → s.state = .idle → ∃ r, exec .engTick s = .refused r) ∧
  ∀ s : State, Inv s → s.life = .ready → s.state = .idle → s.timer = none

/-- 44 R159. -/
def Obligations.CancelStopsEverything : Prop :=
  ((encode .engCancel).selector = 0x41#8 ∧ Instr.engCancel.format = .cmd ∧ Instr.engCancel.contexts = [.process]) ∧
  (∀ s : State, s.life ≠ .ready → exec .engCancel s = .refused .notReady) ∧
  ∀ s : State, s.life = .ready →
    Answers .engCancel s .ok .none { s with timer := none, frame := none, state := .idle } ∧
    ∀ t, exec .engCancel s = .next t → line t = line s ∧ exec .engTick t = .refused .tickNotEnabled

/-- 44 R159, 20 R75, 95 S8: after a cancel no callback fires and no register is touched until the engine is armed again. A
step that neither arms, nor writes through the device file, nor ends the life of the block keeps it so. The trace holds the
block's own accesses: that a write from outside adds none is the model's choice (log entry 21, DESIGN CHOICE). -/
def Obligations.NoAccessUntilArmedAgain : Prop :=
  ∀ s t : State, Inv s → s.life = .ready → s.state = .idle →
    (∀ e rest, s.inbox = e :: rest → ¬ e.isCall .engArm ∧ ¬ e.isCall .sysTeardown ∧ ∀ d n, ¬ e.isCall (.devWrite d n)) →
    step s = .next t →
    t.life = .ready ∧ t.state = .idle ∧ t.timer = none ∧
      ∃ es, t.trace = s.trace ++ es ∧ ∀ e ∈ es, e.event.isAccess = false

/-- 44 R161. The refusal of a due time before now is the model's reading of it (log entry 16, DEDUCED). -/
def Obligations.ScheduleArmsTheTimer : Prop :=
  (∀ d, (encode (.timerSchedule d)).selector = 0x43#8 ∧ (Instr.timerSchedule d).format = .sub) ∧
  ∀ (s : State) (due : Time), s.life = .ready →
    (s.now ≤ due → Answers (.timerSchedule due) s .ok .none { s with timer := some due }) ∧
    (due < s.now → exec (.timerSchedule due) s = .refused .dueBeforeNow)

/-- 44 R162. -/
def Obligations.DescheduleDisarmsTheTimer : Prop :=
  ((encode .timerDeschedule).selector = 0x44#8 ∧ Instr.timerDeschedule.format = .sub) ∧
  ∀ s : State, s.life = .ready →
    Answers .timerDeschedule s .ok .none { s with timer := none } ∧
    (s.timer = none → Answers .timerDeschedule s .ok .none s)

/-- 44 R160, R163: each tick makes at most one register write and never a register read, takes at most one byte from the
buffer, and either reschedules by exactly one bit period, with exactly one write, or writes nothing and leaves the timer
unarmed. -/
def Obligations.OneTransitionPerTick : Prop :=
  ∀ s t : State, exec .engTick s = .next t →
    s.timer = some s.now ∧ t.now = s.now ∧ (t.buf = s.buf ∨ t.buf = s.buf.tail) ∧ t.fsel = s.fsel ∧
    (∀ p : Fin Config.npins, p ≠ s.cfg.logicalPin → t.out[p] = s.out[p]) ∧
    ((t.timer = some (s.now + 1 / (s.cfg.bitsPerSecond : Rat)) ∧
        ∃ l, t.trace = s.trace ++ pinWrite s.cfg.logicalPin s.now l ∧ t.out[s.cfg.logicalPin] = l) ∨
      (t.timer = none ∧ t.trace = s.trace ∧ t.out = s.out ∧ t.state = .idle))

/-- 44 R165, 70 R265 to R267: the whole message. Armed at `t0` with `n` bytes and left alone, the block fires `10n + 1`
ticks at `t0 + kT`; after `k` of the first `10n` the first `k` slots of the frames of the bytes are on the trace, each at
its time, and `ceil(k / 10)` bytes have left the buffer; the last tick writes nothing and ends in IDLE with the line HIGH. -/
def Obligations.MessageIsSentSlotBySlot : Prop :=
  ∀ (s : State) (bytes : List Byte), Inv s → s.life = .ready → s.state = .idle → s.inbox = [] → s.buf = bytes →
    bytes ≠ [] →
    ∃ a : State, exec .engArm s = .next a ∧
      (∀ k, 1 ≤ k → k ≤ 10 * bytes.length → ∃ u : State, core.run k a = .next u ∧
        u.now = s.now + k * (1 / (s.cfg.bitsPerSecond : Rat)) ∧ u.timer = some (u.now + 1 / (s.cfg.bitsPerSecond : Rat)) ∧
        u.state = .transmitting ∧ u.buf = bytes.drop ((k + 9) / 10) ∧
        u.trace = a.trace ++ slotTrace s.cfg.logicalPin (1 / (s.cfg.bitsPerSecond : Rat))
          (s.now + 1 / (s.cfg.bitsPerSecond : Rat)) ((messageLevels bytes).take k)) ∧
      ∃ z : State, core.run (10 * bytes.length + 1) a = .next z ∧
        z = { s with
          now := s.now + (10 * bytes.length + 1 : Nat) * (1 / (s.cfg.bitsPerSecond : Rat))
          buf := []
          out := s.out.set s.cfg.logicalPin .high
          trace := a.trace ++ slotTrace s.cfg.logicalPin (1 / (s.cfg.bitsPerSecond : Rat))
            (s.now + 1 / (s.cfg.bitsPerSecond : Rat)) (messageLevels bytes) } ∧
        line z = .driven .high

/-- 45 R185: a consume during a frame returns the bytes not yet taken and the frame goes on with its own byte: its remaining
slots are sent at their times and the next tick idles. A consume during the stop bit's period, when the frame is done, leaves
nothing for the next tick, which idles without touching the pin. A consume while ARMED leaves nothing for the first tick. -/
def Obligations.ConsumeLetsTheFrameFinish : Prop :=
  ∀ (s : State) (due : Time), Inv s → s.life = .ready → s.inbox = [] → s.timer = some due →
    ∃ a : State, Answers .mbConsume s .ok (.bytes s.buf s.buf.length) { s with buf := [] } ∧
      exec .mbConsume s = .next a ∧
      (∀ (f : TxFrame) (k : Nat), s.frame = some f → f.done = false → f.bitIndex = (k : Int) →
        ∃ z : State, core.run (9 - k + 1) a = .next z ∧ z.state = .idle ∧ z.buf = [] ∧ z.frame = none ∧ z.timer = none ∧
          z.trace = a.trace ++ slotTrace s.cfg.logicalPin (1 / (s.cfg.bitsPerSecond : Rat)) due
            ((frameLevels f.byte).drop (k + 1))) ∧
      (∀ f : TxFrame, s.frame = some f → f.done = true →
        ∃ z : State, core.run 1 a = .next z ∧ z.state = .idle ∧ z.buf = [] ∧ z.frame = none ∧ z.timer = none ∧ z.now = due ∧
          z.trace = a.trace ∧ line z = line s) ∧
      (s.state = .armed → ∃ z : State, core.run 1 a = .next z ∧ z.state = .idle ∧ z.trace = a.trace ∧ line z = line s)

/-! ## MessageBuffer -/

/-- 45 R180. -/
def Obligations.EnqueueReplacesThePayload : Prop :=
  (∀ bs, (encode (.mbEnqueue bs)).selector = 0x50#8 ∧ (Instr.mbEnqueue bs).format = .cmd ∧
    (Instr.mbEnqueue bs).contexts = [.process]) ∧
  (∀ (s : State) bs, s.life ≠ .ready → exec (.mbEnqueue bs) s = .refused .notReady) ∧
  ∀ (s : State) (bytes : List Byte), s.life = .ready →
    (256 < bytes.length → Answers (.mbEnqueue bytes) s .eOversize .none s) ∧
    (bytes.length ≤ 256 → s.state ≠ .idle → Answers (.mbEnqueue bytes) s .eBusy .none s) ∧
    (bytes.length ≤ 256 → s.state = .idle → Answers (.mbEnqueue bytes) s .ok .none { s with buf := bytes })

/-- 45 R181: everything is returned, the buffer is empty, and a second call returns length 0. -/
def Obligations.ConsumeTakesEverything : Prop :=
  ((encode .mbConsume).selector = 0x51#8 ∧ Instr.mbConsume.format = .cmd ∧ Instr.mbConsume.contexts = [.process]) ∧
  (∀ s : State, s.life ≠ .ready → exec .mbConsume s = .refused .notReady) ∧
  ∀ s : State, s.life = .ready →
    Answers .mbConsume s .ok (.bytes s.buf s.buf.length) { s with buf := [] } ∧
    ∀ t, exec .mbConsume s = .next t → Answers .mbConsume t .ok (.bytes [] 0) t

/-- 45 R182. -/
def Obligations.IsEmptyTellsTheLength : Prop :=
  ((encode .mbIsEmpty).selector = 0x52#8 ∧ Instr.mbIsEmpty.format = .cmd ∧
    Instr.mbIsEmpty.contexts = [.process, .callback]) ∧
  (∀ s : State, s.life ≠ .ready → exec .mbIsEmpty s = .refused .notReady) ∧
  ∀ s : State, s.life = .ready → Answers .mbIsEmpty s .ok (.flag (decide (s.buf.length = 0))) s

/-- 45 R183. -/
def Obligations.DequeueTakesTheHead : Prop :=
  ((encode .mbDequeue).selector = 0x53#8 ∧ Instr.mbDequeue.format = .sub ∧ Instr.mbDequeue.contexts = [.callback]) ∧
  (∀ s : State, s.life = .ready → s.buf.length = 0 → exec .mbDequeue s = .refused .emptyBuffer) ∧
  ∀ (s : State) (b : Byte) (rest : List Byte), s.life = .ready → s.buf = b :: rest →
    Answers .mbDequeue s .ok (.byte b) { s with buf := rest }

/-! ## Lifecycle and reset -/

/-- 46 R190, with either operand given or left to its default: a second init is refused, a bad configuration is E_CONFIG with
nothing changed, and a good one leaves exactly this state, with one strobe write, one read and one write of the function-select register, in that order. -/
def Obligations.InitBringsTheBlockUp : Prop :=
  (∀ p b, (encode (.sysInit p b)).selector = 0x60#8 ∧ (Instr.sysInit p b).format = .cmd ∧
    (Instr.sysInit p b).contexts = [.process]) ∧
  (∀ (s : State) (pin baud : Option Int), s.life = .ready → exec (.sysInit pin baud) s = .refused .alreadyReady) ∧
  (∀ (s : State) (pin baud : Option Int), s.life ≠ .ready →
    (∃ b, baud = some b ∧ b ≤ 0) ∨ (∃ p, pin = some p ∧ (p < 0 ∨ 54 ≤ p)) →
    Answers (.sysInit pin baud) s .eConfig .none s) ∧
  ∀ (s : State) (pin baud : Option Int) (p : Fin Config.npins) (rate : Nat) (r : Fin Config.nfsel), s.life ≠ .ready →
    pin.getD 4 = (p.val : Nat) → baud.getD 4800 = (rate : Nat) → 0 < rate → r.val = p.val / 10 →
    ∃ new : Word, FieldChanged s.fsel[r] new ((p.val % 10) * 3) 0b001#3 ∧
      Answers (.sysInit pin baud) s .ok .none { s with
        life := .ready
        cfg := ⟨rate, p⟩
        mapped := true
        buf := []
        frame := none
        state := .idle
        timer := none
        out := s.out.set p .high
        fsel := s.fsel.set r new
        trace := s.trace ++ pinWrite p s.now .high ++
          [⟨s.now, .regRead (.fsel r)⟩, ⟨s.now, .regWrite (.fsel r) new⟩] }

/-- 46 R191. -/
def Obligations.TeardownCancelsThenReleases : Prop :=
  ((encode .sysTeardown).selector = 0x61#8 ∧ Instr.sysTeardown.format = .cmd ∧
    Instr.sysTeardown.contexts = [.process]) ∧
  (∀ s : State, s.life ≠ .ready → exec .sysTeardown s = .refused .notReady) ∧
  ∀ s : State, s.life = .ready →
    Answers .sysTeardown s .ok .none
      { s with timer := none, frame := none, state := .idle, mapped := false, life := .down } ∧
    ∀ t i, exec .sysTeardown s = .next t → (∀ p b, i ≠ .sysInit p b) → exec i t = .refused .notReady

/-- 10 R45, 70 R250: what power-on leaves (the values the spec states), that nothing but SYS.init is admitted then, and that
nothing runs until a caller acts. The empty inbox is the model's (log entry 1). -/
def Obligations.PowerOnAdmitsOnlyInit : Prop :=
  State.reset.life = .uninit ∧ State.reset.mapped = false ∧ State.reset.timer = none ∧ State.reset.openCount = 0 ∧
  (∀ i, (∀ p b, i ≠ .sysInit p b) → exec i State.reset = .refused .notReady) ∧
  step State.reset = .next State.reset ∧
  ∀ i : Instr, i = .sysInit none none ∨ i = .sysInit (some 4) (some 4800) →
    ∃ t, exec i State.reset = .next t ∧ t.life = .ready ∧ t.state = .idle ∧ line t = .driven .high ∧
      bitPeriod t = 1 / 4800

/-- 70 R255: no step changes the configuration while READY, so never in flight; a teardown and an init with the new rate
change it. -/
def Obligations.ConfigurationIsFixedWhileReady : Prop :=
  (∀ s t : State, s.life = .ready → step s = .next t → t.cfg = s.cfg) ∧
  ∀ (s : State) (p : Fin Config.npins) (baud : Nat), s.life = .ready → 0 < baud →
    ∃ t u, exec .sysTeardown s = .next t ∧ exec (.sysInit (some (p.val : Nat)) (some (baud : Nat))) t = .next u ∧ u.life = .ready ∧
      u.cfg = ⟨baud, p⟩

/-! ## Device file -/

/-- 46 R192, while READY (outside READY 60 R219 refuses it; log entry 10). -/
def Obligations.OpenCounts : Prop :=
  ((encode .devOpen).selector = 0x70#8 ∧ Instr.devOpen.format = .dev ∧ Instr.devOpen.contexts = [.process]) ∧
  ∀ s : State, s.life = .ready → Answers .devOpen s .ok .none { s with openCount := s.openCount + 1 }

/-- 46 R193, 30 R100: the message is the data, `(`, the decimal length and ` letters)`; it is queued and the engine is
armed in one step; on an error nothing changes and the engine is not armed. -/
def Obligations.WriteQueuesTheMessageAndArms : Prop :=
  (∀ d n, (encode (.devWrite d n)).selector = 0x71#8 ∧ (Instr.devWrite d n).format = .dev ∧
    (Instr.devWrite d n).contexts = [.process]) ∧
  (∀ (s : State) d n, s.life ≠ .ready → exec (.devWrite d n) s = .refused .notReady) ∧
  (∀ (s : State) (data : List Byte) (n : Nat), s.life = .ready → n ≠ data.length →
    exec (.devWrite data n) s = .refused .operandOutOfRange) ∧
  ∀ (s : State) (data : List Byte), s.life = .ready →
    let msg := data ++ [0x28#8] ++ dec data.length ++
      [0x20#8, 0x6C#8, 0x65#8, 0x74#8, 0x74#8, 0x65#8, 0x72#8, 0x73#8, 0x29#8]
    msg.length = data.length + (dec data.length).length + 10 ∧
    (256 < msg.length → Answers (.devWrite data data.length) s .eOversize .none s) ∧
    (msg.length ≤ 256 → s.state ≠ .idle → Answers (.devWrite data data.length) s .eBusy .none s) ∧
    (msg.length ≤ 256 → s.state = .idle → Answers (.devWrite data data.length) s .ok (.count data.length)
      { s with buf := msg, state := .armed, timer := some (s.now + 1 / (s.cfg.bitsPerSecond : Rat)) })

/-- 46 R194. -/
def Obligations.ReadClearsOnlyAfterTheCopy : Prop :=
  (∀ c ok, (encode (.devRead c ok)).selector = 0x72#8 ∧ (Instr.devRead c ok).format = .dev ∧
    (Instr.devRead c ok).contexts = [.process]) ∧
  (∀ (s : State) c ok, s.life ≠ .ready → exec (.devRead c ok) s = .refused .notReady) ∧
  ∀ (s : State) (cap : Nat), s.life = .ready →
    Answers (.devRead cap true) s .ok (.bytes (s.buf.take cap) (min cap s.buf.length)) { s with buf := [] } ∧
    (0 < cap → s.buf ≠ [] → Answers (.devRead cap false) s .eFault .none s) ∧
    (cap = 0 ∨ s.buf = [] → Answers (.devRead cap false) s .ok (.bytes [] 0) { s with buf := [] })

/-- 46 R195, while READY (outside READY 60 R219 refuses it; log entry 10). -/
def Obligations.CloseDoesNothing : Prop :=
  ((encode .devClose).selector = 0x73#8 ∧ Instr.devClose.format = .dev ∧ Instr.devClose.contexts = [.process]) ∧
  ∀ s : State, s.life = .ready → Answers .devClose s .ok .none s

/-- 30 R101: `dec n` writes `n` in ASCII digits, most significant first, no leading zero, and has the number of digits the
rule gives; with the capacity of 256 the longest data that fits is 243 bytes. -/
def Obligations.DecimalRendering : Prop :=
  (∀ n, dec n ≠ [] ∧ (∀ d ∈ dec n, 0x30 ≤ d.toNat ∧ d.toNat ≤ 0x39) ∧ decimalValue (dec n) = n ∧
    (n ≠ 0 → (dec n).head? ≠ some 0x30#8)) ∧
  dec 0 = [0x30#8] ∧
  (∀ n, n ≤ 9 → (dec n).length = 1) ∧ (∀ n, 10 ≤ n → n ≤ 99 → (dec n).length = 2) ∧
  (∀ n, 100 ≤ n → n ≤ 999 → (dec n).length = 3) ∧
  ∀ data : List Byte, (messageText data data.length).length ≤ 256 ↔ data.length ≤ 243

/-- 46 R194 (example), 95 S4: a read after a write and before the first tick returns the whole message, a second read
returns length 0, and the first tick then finds nothing to send. -/
def Obligations.WriteThenReadReturnsTheMessage : Prop :=
  ∀ (s : State) (data : List Byte) (cap : Nat), s.life = .ready → s.state = .idle → data.length ≤ 243 → 256 ≤ cap →
    ∃ t u v w, exec (.devWrite data data.length) s = .next t ∧
      exec (.devRead cap true) t = .next u ∧
      u = record (.resp (.devRead cap true) .ok (.bytes (messageText data data.length) (messageText data data.length).length))
        { t with buf := [] } ∧
      exec (.devRead cap true) u = .next v ∧
      v = record (.resp (.devRead cap true) .ok (.bytes [] 0)) u ∧
      fireTick v = .next w ∧ w.state = .idle ∧ w.trace = v.trace ∧ w.out = s.out

/-! ## The whole machine -/

/-- The invariant of the assembled block holds at power-on (10 R44, R45). -/
def Obligations.InvariantHoldsAtReset : Prop := Inv State.reset

/-- 10 R44 INV1 to INV7, R22, R26: every step of the assembled block keeps the invariant. -/
def Obligations.StepKeepsTheInvariant : Prop := ∀ s t : State, Inv s → step s = .next t → Inv t

/-- 10 R44 INV8, as far as the operation rules give it (log entry 11): the line is HIGH whenever no slot is being sent,
SYS.init makes it so from any state, and every step but a cancel keeps it. -/
def Obligations.LineIsHighWhenNothingIsSent : Prop :=
  (∀ (s t : State) (p b : Option Int), exec (.sysInit p b) s = .next t → IdleHigh t ∧ (t.life = .ready → line t = .driven .high)) ∧
  ∀ s t : State, Inv s → IdleHigh s → (∀ e rest, s.inbox = e :: rest → ¬ e.isCall .engCancel) → step s = .next t → IdleHigh t

/-- 70 R261, and the limit of 10 R44 INV8 (log entry 11): from any IDLE block whose line a cancel has left LOW, a message
that is queued, armed and read back before its first tick ends in IDLE by ENG.tick, with the line still LOW. -/
def Obligations.IdleByTickCanBeLowAfterACancel : Prop :=
  ∀ (s : State) (bytes : List Byte), Inv s → s.life = .ready → s.state = .idle → line s = .driven .low →
    bytes ≠ [] → bytes.length ≤ 256 →
    ∃ a b c d, exec (.mbEnqueue bytes) s = .next a ∧ exec .engArm a = .next b ∧ exec .mbConsume b = .next c ∧
      fireTick c = .next d ∧ d.state = .idle ∧ Inv d ∧ line d = .driven .low

/-- 10 R31: the line is the pin's latch exactly while the pin's field is the output code; in READY it always is. -/
def Obligations.ReadyLineIsTheLatch : Prop :=
  (∀ s : State, (pinField s = Config.funcOutput → line s = .driven s.out[s.cfg.logicalPin]) ∧
    (pinField s ≠ Config.funcOutput → line s = .undriven)) ∧
  ∀ s t : State, Inv s → step s = .next t → t.life = .ready → line t = .driven t.out[t.cfg.logicalPin]

/-- 20 R73, R78, 10 R29: while READY no operation of the assembled block but ENG.tick touches the register bank, and
ENG.tick writes only the latch of the block's own pin. -/
def Obligations.OnlyTheTickTouchesThePin : Prop :=
  ∀ (i : Instr) (s t : State), s.life = .ready → i.assembled = true → exec i s = .next t →
    t.fsel = s.fsel ∧ (∀ p : Fin Config.npins, p ≠ s.cfg.logicalPin → t.out[p] = s.out[p]) ∧
    (i ≠ .engTick → t.out = s.out ∧ ∃ es, t.trace = s.trace ++ es ∧ ∀ e ∈ es, e.event.isAccess = false)

/-- 10 R38: no step reads the trace. Two states that differ only in it take the same step: the same fault or refusal, or
next states that again differ only in it and have gained the same events. -/
def Obligations.TraceIsNeverRead : Prop :=
  ∀ s s' : State, SameButTrace s s' →
    (∀ t, step s = .next t → ∃ t' es, step s' = .next t' ∧ SameButTrace t t' ∧ t.trace = s.trace ++ es ∧
      t'.trace = s'.trace ++ es) ∧
    (∀ f, step s = .fault f → step s' = .fault f) ∧ (∀ r, step s = .refused r → step s' = .refused r)

/-- 60 R224, decision D34: at an instant when a tick is due, a cancel may come before it or after it; both orders are runs
of the block, and both end with no callback pending. -/
def Obligations.CancelAndTickInEitherOrder : Prop :=
  ∀ s : State, Inv s → s.life = .ready → s.timer = some s.now →
    (∃ a, exec .engCancel s = .next a ∧ a.timer = none ∧ a.buf = s.buf ∧ a.out = s.out) ∧
    ∃ t b, exec .engTick s = .next t ∧ exec .engCancel t = .next b ∧ b.timer = none ∧ b.state = .idle ∧ b.now = s.now

/-- 46 R196: SYS.init accepts any legal pair, a caller that gives none uses (4, 4800), and no operation changes the pair while
READY. -/
def Obligations.InitAcceptsAnyPairAndDefaults : Prop :=
  (∀ s : State, s.life ≠ .ready → ∃ t, Answers (.sysInit none none) s .ok .none t ∧
    Answers (.sysInit (some 4) (some 4800)) s .ok .none t ∧ t.life = .ready ∧ t.cfg.bitsPerSecond = 4800 ∧
    t.cfg.logicalPin.val = 4) ∧
  (∀ (s : State) (p : Fin Config.npins) (rate : Nat), s.life ≠ .ready → 0 < rate →
    ∃ t, Answers (.sysInit (some (p.val : Nat)) (some (rate : Nat))) s .ok .none t ∧ t.life = .ready ∧ t.cfg = ⟨rate, p⟩) ∧
  ∀ (i : Instr) (s t : State), s.life = .ready → exec i s = .next t → t.cfg = s.cfg
end

