-- ==== Sys2Proof/Laws/Operands.lean ====
section
/-!
SUPPORT. What the operand checks answer, and the length of the message text.
-/

namespace Sys2Proof.Machine

theorem finOf_val {n : Nat} (i : Fin n) : finOf n (i.val : Nat) = some i := by
  simp [finOf]

theorem finOf_none {n : Nat} {v : Int} (h : ¬(0 ≤ v ∧ v < n)) : finOf n v = none := by
  simp [finOf, h]

theorem finOf_some {n : Nat} {v : Int} {i : Fin n} (h : finOf n v = some i) : v = (i.val : Nat) := by
  unfold finOf at h
  split at h
  · cases h
    simp
    omega
  · cases h

theorem offsetOf_val (k : Fin 10) : offsetOf (3 * k.val : Nat) = some (3 * k.val) := by
  have := k.isLt
  simp only [offsetOf]
  rw [if_pos (by omega)]
  rfl

theorem offsetOf_some {v : Int} {off : Nat} (h : offsetOf v = some off) : 0 ≤ v ∧ v ≤ 27 ∧ v % 3 = 0 ∧ v = off := by
  unfold offsetOf at h
  split at h
  · rename_i hv
    cases h
    exact ⟨hv.1, hv.2.1, hv.2.2, by omega⟩
  · cases h

theorem codeOf_val (c : BitVec 3) : codeOf (c.toNat : Nat) = some c := by
  have := c.isLt
  simp only [codeOf]
  rw [if_pos (by omega)]
  simp

theorem codeOf_some {v : Int} {c : BitVec 3} (h : codeOf v = some c) : 0 ≤ v ∧ v ≤ 7 := by
  unfold codeOf at h
  split at h
  · assumption
  · cases h

@[simp] theorem pinOrDefault_some (p : Int) : pinOrDefault (some p) = p := rfl

@[simp] theorem pinOrDefault_none : pinOrDefault none = 4 := rfl

@[simp] theorem baudOrDefault_some (b : Int) : baudOrDefault (some b) = b := rfl

@[simp] theorem baudOrDefault_none : baudOrDefault none = 4800 := rfl

theorem messageText_length (data : List Byte) (n : Nat) :
    (messageText data n).length = data.length + (dec n).length + 10 := by
  simp [messageText, lettersText]
  omega

theorem levelOf_high (l : Level) : levelOf (decide (l = .high)) = l := by cases l <;> rfl

end Sys2Proof.Machine
end

