-- ==== Sys2Proof/Laws/State.lean ====
section
/-!
SUPPORT. One lemma per field per update of the state: what each small update leaves alone and what it sets.
-/

namespace Sys2Proof.Machine

@[simp] theorem record_life (ev : TraceEvent) (s : State) :
    (record ev s).life = s.life := rfl

@[simp] theorem record_cfg (ev : TraceEvent) (s : State) :
    (record ev s).cfg = s.cfg := rfl

@[simp] theorem record_mapped (ev : TraceEvent) (s : State) :
    (record ev s).mapped = s.mapped := rfl

@[simp] theorem record_fsel (ev : TraceEvent) (s : State) :
    (record ev s).fsel = s.fsel := rfl

@[simp] theorem record_out (ev : TraceEvent) (s : State) :
    (record ev s).out = s.out := rfl

@[simp] theorem record_buf (ev : TraceEvent) (s : State) :
    (record ev s).buf = s.buf := rfl

@[simp] theorem record_frame (ev : TraceEvent) (s : State) :
    (record ev s).frame = s.frame := rfl

@[simp] theorem record_state (ev : TraceEvent) (s : State) :
    (record ev s).state = s.state := rfl

@[simp] theorem record_timer (ev : TraceEvent) (s : State) :
    (record ev s).timer = s.timer := rfl

@[simp] theorem record_now (ev : TraceEvent) (s : State) :
    (record ev s).now = s.now := rfl

@[simp] theorem record_openCount (ev : TraceEvent) (s : State) :
    (record ev s).openCount = s.openCount := rfl

@[simp] theorem record_inbox (ev : TraceEvent) (s : State) :
    (record ev s).inbox = s.inbox := rfl

@[simp] theorem record_trace (ev : TraceEvent) (s : State) :
    (record ev s).trace = s.trace ++ [⟨s.now, ev⟩] := rfl

@[simp] theorem setTimer_life (d : Time) (s : State) :
    (setTimer d s).life = s.life := rfl

@[simp] theorem setTimer_cfg (d : Time) (s : State) :
    (setTimer d s).cfg = s.cfg := rfl

@[simp] theorem setTimer_mapped (d : Time) (s : State) :
    (setTimer d s).mapped = s.mapped := rfl

@[simp] theorem setTimer_fsel (d : Time) (s : State) :
    (setTimer d s).fsel = s.fsel := rfl

@[simp] theorem setTimer_out (d : Time) (s : State) :
    (setTimer d s).out = s.out := rfl

@[simp] theorem setTimer_buf (d : Time) (s : State) :
    (setTimer d s).buf = s.buf := rfl

@[simp] theorem setTimer_frame (d : Time) (s : State) :
    (setTimer d s).frame = s.frame := rfl

@[simp] theorem setTimer_state (d : Time) (s : State) :
    (setTimer d s).state = s.state := rfl

@[simp] theorem setTimer_timer (d : Time) (s : State) :
    (setTimer d s).timer = some d := rfl

@[simp] theorem setTimer_now (d : Time) (s : State) :
    (setTimer d s).now = s.now := rfl

@[simp] theorem setTimer_openCount (d : Time) (s : State) :
    (setTimer d s).openCount = s.openCount := rfl

@[simp] theorem setTimer_inbox (d : Time) (s : State) :
    (setTimer d s).inbox = s.inbox := rfl

@[simp] theorem setTimer_trace (d : Time) (s : State) :
    (setTimer d s).trace = s.trace := rfl

@[simp] theorem clearTimer_life (s : State) :
    (clearTimer s).life = s.life := rfl

@[simp] theorem clearTimer_cfg (s : State) :
    (clearTimer s).cfg = s.cfg := rfl

@[simp] theorem clearTimer_mapped (s : State) :
    (clearTimer s).mapped = s.mapped := rfl

@[simp] theorem clearTimer_fsel (s : State) :
    (clearTimer s).fsel = s.fsel := rfl

@[simp] theorem clearTimer_out (s : State) :
    (clearTimer s).out = s.out := rfl

@[simp] theorem clearTimer_buf (s : State) :
    (clearTimer s).buf = s.buf := rfl

@[simp] theorem clearTimer_frame (s : State) :
    (clearTimer s).frame = s.frame := rfl

@[simp] theorem clearTimer_state (s : State) :
    (clearTimer s).state = s.state := rfl

@[simp] theorem clearTimer_timer (s : State) :
    (clearTimer s).timer = none := rfl

@[simp] theorem clearTimer_now (s : State) :
    (clearTimer s).now = s.now := rfl

@[simp] theorem clearTimer_openCount (s : State) :
    (clearTimer s).openCount = s.openCount := rfl

@[simp] theorem clearTimer_inbox (s : State) :
    (clearTimer s).inbox = s.inbox := rfl

@[simp] theorem clearTimer_trace (s : State) :
    (clearTimer s).trace = s.trace := rfl

@[simp] theorem applyWrite_life (r : Reg) (v : Word) (s : State) :
    (applyWrite r v s).life = s.life := by
  unfold applyWrite
  cases r <;> rfl

@[simp] theorem applyWrite_cfg (r : Reg) (v : Word) (s : State) :
    (applyWrite r v s).cfg = s.cfg := by
  unfold applyWrite
  cases r <;> rfl

@[simp] theorem applyWrite_mapped (r : Reg) (v : Word) (s : State) :
    (applyWrite r v s).mapped = s.mapped := by
  unfold applyWrite
  cases r <;> rfl

@[simp] theorem applyWrite_buf (r : Reg) (v : Word) (s : State) :
    (applyWrite r v s).buf = s.buf := by
  unfold applyWrite
  cases r <;> rfl

@[simp] theorem applyWrite_frame (r : Reg) (v : Word) (s : State) :
    (applyWrite r v s).frame = s.frame := by
  unfold applyWrite
  cases r <;> rfl

@[simp] theorem applyWrite_state (r : Reg) (v : Word) (s : State) :
    (applyWrite r v s).state = s.state := by
  unfold applyWrite
  cases r <;> rfl

@[simp] theorem applyWrite_timer (r : Reg) (v : Word) (s : State) :
    (applyWrite r v s).timer = s.timer := by
  unfold applyWrite
  cases r <;> rfl

@[simp] theorem applyWrite_now (r : Reg) (v : Word) (s : State) :
    (applyWrite r v s).now = s.now := by
  unfold applyWrite
  cases r <;> rfl

@[simp] theorem applyWrite_openCount (r : Reg) (v : Word) (s : State) :
    (applyWrite r v s).openCount = s.openCount := by
  unfold applyWrite
  cases r <;> rfl

@[simp] theorem applyWrite_inbox (r : Reg) (v : Word) (s : State) :
    (applyWrite r v s).inbox = s.inbox := by
  unfold applyWrite
  cases r <;> rfl

@[simp] theorem applyWrite_trace (r : Reg) (v : Word) (s : State) :
    (applyWrite r v s).trace = s.trace := by
  unfold applyWrite
  cases r <;> rfl

@[simp] theorem noteLevel_life (b : Fin Config.nbank) (k : Fin 32) (l : Level) (s : State) :
    (noteLevel b k l s).life = s.life := by
  unfold noteLevel
  split <;> rfl

@[simp] theorem noteLevel_cfg (b : Fin Config.nbank) (k : Fin 32) (l : Level) (s : State) :
    (noteLevel b k l s).cfg = s.cfg := by
  unfold noteLevel
  split <;> rfl

@[simp] theorem noteLevel_mapped (b : Fin Config.nbank) (k : Fin 32) (l : Level) (s : State) :
    (noteLevel b k l s).mapped = s.mapped := by
  unfold noteLevel
  split <;> rfl

@[simp] theorem noteLevel_fsel (b : Fin Config.nbank) (k : Fin 32) (l : Level) (s : State) :
    (noteLevel b k l s).fsel = s.fsel := by
  unfold noteLevel
  split <;> rfl

@[simp] theorem noteLevel_out (b : Fin Config.nbank) (k : Fin 32) (l : Level) (s : State) :
    (noteLevel b k l s).out = s.out := by
  unfold noteLevel
  split <;> rfl

@[simp] theorem noteLevel_buf (b : Fin Config.nbank) (k : Fin 32) (l : Level) (s : State) :
    (noteLevel b k l s).buf = s.buf := by
  unfold noteLevel
  split <;> rfl

@[simp] theorem noteLevel_frame (b : Fin Config.nbank) (k : Fin 32) (l : Level) (s : State) :
    (noteLevel b k l s).frame = s.frame := by
  unfold noteLevel
  split <;> rfl

@[simp] theorem noteLevel_state (b : Fin Config.nbank) (k : Fin 32) (l : Level) (s : State) :
    (noteLevel b k l s).state = s.state := by
  unfold noteLevel
  split <;> rfl

@[simp] theorem noteLevel_timer (b : Fin Config.nbank) (k : Fin 32) (l : Level) (s : State) :
    (noteLevel b k l s).timer = s.timer := by
  unfold noteLevel
  split <;> rfl

@[simp] theorem noteLevel_now (b : Fin Config.nbank) (k : Fin 32) (l : Level) (s : State) :
    (noteLevel b k l s).now = s.now := by
  unfold noteLevel
  split <;> rfl

@[simp] theorem noteLevel_openCount (b : Fin Config.nbank) (k : Fin 32) (l : Level) (s : State) :
    (noteLevel b k l s).openCount = s.openCount := by
  unfold noteLevel
  split <;> rfl

@[simp] theorem noteLevel_inbox (b : Fin Config.nbank) (k : Fin 32) (l : Level) (s : State) :
    (noteLevel b k l s).inbox = s.inbox := by
  unfold noteLevel
  split <;> rfl

@[simp] theorem toDue_life (s : State) :
    (toDue s).life = s.life := by
  simp only [toDue]
  cases s.timer with
  | none => rfl
  | some d => by_cases h : s.now ≤ d <;> simp only [h, if_true, if_false]

@[simp] theorem toDue_cfg (s : State) :
    (toDue s).cfg = s.cfg := by
  simp only [toDue]
  cases s.timer with
  | none => rfl
  | some d => by_cases h : s.now ≤ d <;> simp only [h, if_true, if_false]

@[simp] theorem toDue_mapped (s : State) :
    (toDue s).mapped = s.mapped := by
  simp only [toDue]
  cases s.timer with
  | none => rfl
  | some d => by_cases h : s.now ≤ d <;> simp only [h, if_true, if_false]

@[simp] theorem toDue_fsel (s : State) :
    (toDue s).fsel = s.fsel := by
  simp only [toDue]
  cases s.timer with
  | none => rfl
  | some d => by_cases h : s.now ≤ d <;> simp only [h, if_true, if_false]

@[simp] theorem toDue_out (s : State) :
    (toDue s).out = s.out := by
  simp only [toDue]
  cases s.timer with
  | none => rfl
  | some d => by_cases h : s.now ≤ d <;> simp only [h, if_true, if_false]

@[simp] theorem toDue_buf (s : State) :
    (toDue s).buf = s.buf := by
  simp only [toDue]
  cases s.timer with
  | none => rfl
  | some d => by_cases h : s.now ≤ d <;> simp only [h, if_true, if_false]

@[simp] theorem toDue_frame (s : State) :
    (toDue s).frame = s.frame := by
  simp only [toDue]
  cases s.timer with
  | none => rfl
  | some d => by_cases h : s.now ≤ d <;> simp only [h, if_true, if_false]

@[simp] theorem toDue_state (s : State) :
    (toDue s).state = s.state := by
  simp only [toDue]
  cases s.timer with
  | none => rfl
  | some d => by_cases h : s.now ≤ d <;> simp only [h, if_true, if_false]

@[simp] theorem toDue_timer (s : State) :
    (toDue s).timer = s.timer := by
  unfold toDue
  split
  · split <;> simp_all
  · simp_all

@[simp] theorem toDue_openCount (s : State) :
    (toDue s).openCount = s.openCount := by
  simp only [toDue]
  cases s.timer with
  | none => rfl
  | some d => by_cases h : s.now ≤ d <;> simp only [h, if_true, if_false]

@[simp] theorem toDue_inbox (s : State) :
    (toDue s).inbox = s.inbox := by
  simp only [toDue]
  cases s.timer with
  | none => rfl
  | some d => by_cases h : s.now ≤ d <;> simp only [h, if_true, if_false]

@[simp] theorem toDue_trace (s : State) :
    (toDue s).trace = s.trace := by
  simp only [toDue]
  cases s.timer with
  | none => rfl
  | some d => by_cases h : s.now ≤ d <;> simp only [h, if_true, if_false]

@[simp] theorem cancel_life (s : State) :
    (ENG.cancel s).life = s.life := rfl

@[simp] theorem cancel_cfg (s : State) :
    (ENG.cancel s).cfg = s.cfg := rfl

@[simp] theorem cancel_mapped (s : State) :
    (ENG.cancel s).mapped = s.mapped := rfl

@[simp] theorem cancel_fsel (s : State) :
    (ENG.cancel s).fsel = s.fsel := rfl

@[simp] theorem cancel_out (s : State) :
    (ENG.cancel s).out = s.out := rfl

@[simp] theorem cancel_buf (s : State) :
    (ENG.cancel s).buf = s.buf := rfl

@[simp] theorem cancel_frame (s : State) :
    (ENG.cancel s).frame = none := rfl

@[simp] theorem cancel_state (s : State) :
    (ENG.cancel s).state = .idle := rfl

@[simp] theorem cancel_timer (s : State) :
    (ENG.cancel s).timer = none := rfl

@[simp] theorem cancel_now (s : State) :
    (ENG.cancel s).now = s.now := rfl

@[simp] theorem cancel_openCount (s : State) :
    (ENG.cancel s).openCount = s.openCount := rfl

@[simp] theorem cancel_inbox (s : State) :
    (ENG.cancel s).inbox = s.inbox := rfl

@[simp] theorem cancel_trace (s : State) :
    (ENG.cancel s).trace = s.trace := rfl

end Sys2Proof.Machine
end

