-- ==== Sys2Proof/Laws/Ops.lean ====
section
/-!
SUPPORT. One lemma per shared operation that says everything it can do, cited instead of unfolding it.
-/

namespace Sys2Proof.Machine

theorem andThen_eq_next {o : Out} {k : State → Out} {t : State} :
    andThen o k = .next t ↔ ∃ s, o = .next s ∧ k s = .next t := by
  cases o <;> simp [andThen]

@[simp] theorem andThen_next (s : State) (k : State → Out) : andThen (.next s) k = k s := rfl
@[simp] theorem andThen_fault (f : Fault) (k : State → Out) : andThen (.fault f) k = .fault f := rfl
@[simp] theorem andThen_refused (r : Refusal) (k : State → Out) : andThen (.refused r) k = .refused r := rfl

theorem andThen_eq_fault {o : Out} {k : State → Out} {f : Fault} :
    andThen o k = .fault f ↔ o = .fault f ∨ ∃ s, o = .next s ∧ k s = .fault f := by
  cases o <;> simp [andThen]

@[simp] theorem whenReady_ready {s : State} (h : s.life = .ready) (k : State → Out) : whenReady s k = k s := by
  simp [whenReady, h]

theorem whenReady_notReady {s : State} (h : s.life ≠ .ready) (k : State → Out) :
    whenReady s k = .refused .notReady := by
  simp [whenReady, h]

theorem whenReady_eq_next {s t : State} {k : State → Out} :
    whenReady s k = .next t ↔ s.life = .ready ∧ k s = .next t := by
  unfold whenReady
  split <;> simp_all

theorem reply_eq_next {op : Instr} {st : Status} {res : Result} {s t : State} :
    reply op st res s = .next t ↔ t = record (.resp op st res) s := by
  simp [reply, eq_comm]

/-! Strobes and function fields. -/

theorem strobe_getElem (b : Fin Config.nbank) (m : Word) (l : Level) (out : Vector Level Config.npins)
    (p : Nat) (hp : p < Config.npins) :
    (strobe b m l out)[p] = if p / 32 = b.val ∧ m.getLsbD (p % 32) = true then l else out[p] := by
  simp [strobe]

theorem shiftedOne_getLsbD (k j : Nat) (hk : k < 32) : (1#32 <<< k).getLsbD j = decide (j = k) := by
  rw [BitVec.getLsbD_shiftLeft]
  by_cases h : j = k
  · subst h; simp [hk]
  · by_cases h2 : j < k
    · simp [h, h2]
    · have : j - k ≠ 0 := by omega
      simp [h, this, BitVec.getLsbD_one]

/-- A single-bit word moves exactly one latch (41 R121, R122). -/
theorem strobe_single (b : Fin Config.nbank) (k : Fin 32) (l : Level) (out : Vector Level Config.npins)
    (p : Nat) (hp : p < Config.npins) :
    (strobe b (1#32 <<< k.val) l out)[p] = if p = 32 * b.val + k.val then l else out[p] := by
  rw [strobe_getElem, shiftedOne_getLsbD _ _ k.isLt]
  have hk := k.isLt
  by_cases h : p = 32 * b.val + k.val
  · rw [if_pos h, if_pos]
    exact ⟨by omega, by simp; omega⟩
  · rw [if_neg h, if_neg]
    simp only [decide_eq_true_eq]
    omega

theorem strobe_pin (p : Fin Config.npins) (l : Level) (out : Vector Level Config.npins) :
    strobe (bank p) (1#32 <<< (p.val % 32)) l out = out.set p l := by
  ext i hi
  have h := strobe_single (bank p) (bit p) l out i hi
  have e : 32 * (bank p).val + (bit p).val = p.val := by simp [bank, bit]; omega
  simp only [e] at h
  simp only [bit] at h
  rw [h, Vector.getElem_set]
  by_cases hp : i = p.val
  · simp [hp]
  · simp [hp, Ne.symm hp]

theorem insertField_getLsbD (old : Word) (off : Nat) (code : BitVec 3) (j : Nat) (hj : j < 32) :
    (insertField old off code).getLsbD j =
      if off ≤ j ∧ j < off + 3 then code.getLsbD (j - off) else old.getLsbD j := by
  have h7 : ∀ m, (0b111#32).getLsbD m = decide (m < 3) := by
    intro m
    by_cases hm : m < 32
    · interval_cases m <;> rfl
    · rw [BitVec.getLsbD_of_ge _ _ (by omega)]; simp; omega
  unfold insertField
  simp only [BitVec.getLsbD_or, BitVec.getLsbD_and, BitVec.getLsbD_not, BitVec.getLsbD_shiftLeft, h7,
    BitVec.truncate_eq_setWidth, BitVec.getLsbD_setWidth, hj, decide_true, Bool.true_and]
  by_cases h1 : off ≤ j
  · by_cases h2 : j < off + 3
    · have a : j - off < 3 := by omega
      have c : j - off < 32 := by omega
      simp [h1, h2, Nat.not_lt.mpr h1, a, c]
    · have a : ¬ j - off < 3 := by omega
      have c : code.getLsbD (j - off) = false := BitVec.getLsbD_of_ge _ _ (by omega)
      simp [h2, Nat.not_lt.mpr h1, a, c]
  · simp [h1, Nat.lt_of_not_le h1]

theorem fieldAt_getLsbD (w : Word) (off j : Nat) (hj : j < 3) :
    (fieldAt w off).getLsbD j = w.getLsbD (off + j) := by
  simp [fieldAt, hj]

theorem fieldAt_insertField (old : Word) (off : Nat) (code : BitVec 3) (h : off + 3 ≤ 32) :
    fieldAt (insertField old off code) off = code := by
  apply BitVec.eq_of_getLsbD_eq
  intro j hj
  rw [fieldAt_getLsbD _ _ _ hj, insertField_getLsbD _ _ _ _ (by omega)]
  simp [hj]

/-! Register access. -/

theorem regWrite_unmapped {s : State} (h : s.mapped = false) (op : Instr) (r : Reg) (v : Word) :
    regWrite op r v s = .fault (.unmapped r op) := by simp [regWrite, h]

theorem regWrite_mapped {s : State} (h : s.mapped = true) (op : Instr) (r : Reg) (v : Word) :
    regWrite op r v s = .next (record (.regWrite r v) (applyWrite r v s)) := by simp [regWrite, h]

theorem regRead_unmapped {s : State} (h : s.mapped = false) (op : Instr) (r : Reg) (k : Word → State → Out) :
    regRead op r s k = .fault (.unmapped r op) := by simp [regRead, h]

theorem regRead_fsel {s : State} (h : s.mapped = true) (op : Instr) (i : Fin Config.nfsel) (k : Word → State → Out) :
    regRead op (.fsel i) s k = k s.fsel[i] (record (.regRead (.fsel i)) s) := by simp [regRead, h]

/-- The state after one function-select field was written (41 R120). -/
def fieldWritten (r : Fin Config.nfsel) (off : Nat) (code : BitVec 3) (s : State) : State :=
  { s with
    fsel := s.fsel.set r (insertField s.fsel[r] off code)
    trace := s.trace ++ [⟨s.now, .regRead (.fsel r)⟩, ⟨s.now, .regWrite (.fsel r) (insertField s.fsel[r] off code)⟩] }

theorem setFunction_mapped {s : State} (h : s.mapped = true) (r : Fin Config.nfsel) (off : Nat) (code : BitVec 3) :
    RB.setFunction r off code s = .next (fieldWritten r off code s) := by
  simp [RB.setFunction, regRead_fsel h, regWrite, h, record, applyWrite, fieldWritten]

theorem setFunction_unmapped {s : State} (h : s.mapped = false) (r : Fin Config.nfsel) (off : Nat) (code : BitVec 3) :
    RB.setFunction r off code s = .fault (.unmapped (.fsel r) (.rbSetFunction r.val off code.toNat)) := by
  simp [RB.setFunction, regRead_unmapped h]

/-- The strobe register that drives a level (41 R121, R122). -/
def strobeReg (b : Fin Config.nbank) : Level → Reg
  | .high => .set b
  | .low => .clr b

/-- The state after one single-bit word was written to a strobe (41 R121, R122). -/
def bitWritten (b : Fin Config.nbank) (k : Fin 32) (l : Level) (s : State) : State :=
  { s with
    out := strobe b (1#32 <<< k.val) l s.out
    trace := s.trace ++ ([⟨s.now, .regWrite (strobeReg b l) (1#32 <<< k.val)⟩] ++
      if 32 * b.val + k.val = s.cfg.logicalPin.val then [⟨s.now, .level l⟩] else []) }

theorem setBit_mapped {s : State} (h : s.mapped = true) (b : Fin Config.nbank) (k : Fin 32) :
    RB.setBit b k s = .next (bitWritten b k .high s) := by
  simp only [RB.setBit, regWrite_mapped h, andThen_next, noteLevel, bitWritten, record, applyWrite, strobeReg]
  split <;> simp

theorem clearBit_mapped {s : State} (h : s.mapped = true) (b : Fin Config.nbank) (k : Fin 32) :
    RB.clearBit b k s = .next (bitWritten b k .low s) := by
  simp only [RB.clearBit, regWrite_mapped h, andThen_next, noteLevel, bitWritten, record, applyWrite, strobeReg]
  split <;> simp

theorem setBit_unmapped {s : State} (h : s.mapped = false) (b : Fin Config.nbank) (k : Fin 32) :
    RB.setBit b k s = .fault (.unmapped (.set b) (.rbSetBit b.val k.val)) := by
  simp [RB.setBit, regWrite_unmapped h]

theorem clearBit_unmapped {s : State} (h : s.mapped = false) (b : Fin Config.nbank) (k : Fin 32) :
    RB.clearBit b k s = .fault (.unmapped (.clr b) (.rbClearBit b.val k.val)) := by
  simp [RB.clearBit, regWrite_unmapped h]

/-! Driving a pin. -/

/-- The state after a pin was driven to a level (42 R131): its latch, and the trace. -/
def pinDriven (p : Fin Config.npins) (l : Level) (s : State) : State :=
  { s with
    out := s.out.set p l
    trace := s.trace ++ ([⟨s.now, .regWrite (strobeReg (bank p) l) (1#32 <<< (p.val % 32))⟩] ++
      if p = s.cfg.logicalPin then [⟨s.now, .level l⟩] else []) }

theorem bank_bit (p : Fin Config.npins) : 32 * (bank p).val + (bit p).val = p.val := by
  simp [bank, bit]; omega

theorem bitWritten_pin (p : Fin Config.npins) (l : Level) (s : State) :
    bitWritten (bank p) (bit p) l s = pinDriven p l s := by
  have h : (bit p).val = p.val % 32 := rfl
  simp only [bitWritten, pinDriven, bank_bit]
  simp only [h, strobe_pin, Fin.ext_iff]

theorem writeLevel_mapped {s : State} (h : s.mapped = true) (p : Fin Config.npins) (b : Bool) :
    PD.writeLevel p b s = .next (pinDriven p (levelOf b) s) := by
  cases b
  · simp [PD.writeLevel, clearBit_mapped h, bitWritten_pin, levelOf]
  · simp [PD.writeLevel, setBit_mapped h, bitWritten_pin, levelOf]

/-- What a write of a level to the block's own pin leaves in the trace is `pinWrite` (41 R121, R122). -/
theorem pinDriven_own (l : Level) (s : State) :
    pinDriven s.cfg.logicalPin l s =
      { s with out := s.out.set s.cfg.logicalPin l, trace := s.trace ++ pinWrite s.cfg.logicalPin s.now l } := by
  cases l <;> simp [pinDriven, pinWrite, strobeReg]

/-! The frame. -/

/-- Everything ENC.nextBit does on a legal unfinished frame (43 R141). -/
theorem nextBit_legal {f : TxFrame} (hd : f.done = false) (h1 : -1 ≤ f.bitIndex) (h2 : f.bitIndex ≤ 8) :
    ENC.nextBit f = .ok (slotLevel f.byte (f.bitIndex + 1).toNat,
      if f.bitIndex = 8 then { f with done := true } else { f with bitIndex := f.bitIndex + 1 }) := by
  obtain ⟨b, i, d⟩ := f
  simp only at hd h1 h2
  subst hd
  by_cases e1 : i = -1
  · subst e1; rfl
  · by_cases e2 : i = 8
    · subst e2; rfl
    · have h3 : 0 ≤ i ∧ i ≤ 7 := by omega
      have a : ¬ (i + 1).toNat = 0 := by omega
      have c : (i + 1).toNat ≤ 8 := by omega
      have e : (i + 1).toNat - 1 = i.toNat := by omega
      simp [ENC.nextBit, e1, e2, h3, slotLevel, a, c, e]

/-- The engine's slot on a mapped bank (44 R153, R155, R156). -/
theorem emitSlot_legal {s : State} (hm : s.mapped = true) {f : TxFrame} (due : Time) (hd : f.done = false)
    (h1 : -1 ≤ f.bitIndex) (h2 : f.bitIndex ≤ 8) :
    emitSlot due f s =
      .next { s with
        frame := some (if f.bitIndex = 8 then { f with done := true } else { f with bitIndex := f.bitIndex + 1 })
        out := s.out.set s.cfg.logicalPin (slotLevel f.byte (f.bitIndex + 1).toNat)
        timer := some (due + bitPeriod s)
        trace := s.trace ++ pinWrite s.cfg.logicalPin s.now (slotLevel f.byte (f.bitIndex + 1).toNat) } := by
  have hl : ∀ l : Level, levelOf (decide (l = .high)) = l := by intro l; cases l <;> rfl
  unfold emitSlot
  rw [nextBit_legal hd h1 h2]
  simp only
  rw [writeLevel_mapped (by simpa using hm), hl]
  have := pinDriven_own (slotLevel f.byte (f.bitIndex + 1).toNat)
    { s with frame := some (if f.bitIndex = 8 then { f with done := true } else { f with bitIndex := f.bitIndex + 1 }) }
  simp only at this
  rw [this]
  rfl

end Sys2Proof.Machine
end

