-- ==== Sys2Proof/Laws/Exec.lean ====
section
/-!
SUPPORT. What an operation can do, said once: if `exec i s` answers a next state `t`, then `Effect i s t`. Whole-machine
claims are proved from this by cases on `i`, without unfolding an operation again.
-/

namespace Sys2Proof.Machine

/-- The state SYS.init leaves when it succeeds (46 R190). -/
def broughtUp (p : Fin Config.npins) (baud : Nat) (s : State) : State :=
  { s with
    life := .ready
    cfg := ⟨baud, p⟩
    mapped := true
    buf := []
    frame := none
    state := .idle
    timer := none
    out := s.out.set p .high
    fsel := s.fsel.set (fselIndex p) (insertField s.fsel[fselIndex p] (fselOffset p) Config.funcOutput)
    trace := s.trace ++ pinWrite p s.now .high ++
      [⟨s.now, .regRead (.fsel (fselIndex p))⟩,
       ⟨s.now, .regWrite (.fsel (fselIndex p)) (insertField s.fsel[fselIndex p] (fselOffset p) Config.funcOutput)⟩] }

theorem bringUp_eq (p : Fin Config.npins) (baud : Nat) (s : State) :
    SYS.bringUp p baud s = .next (broughtUp p baud s) := by
  unfold SYS.bringUp
  rw [writeLevel_mapped rfl]
  have h := pinDriven_own .high (SYS.prepare p baud s)
  change pinDriven p .high (SYS.prepare p baud s) = _ at h
  change andThen (.next (pinDriven p .high (SYS.prepare p baud s))) _ = _
  rw [h]
  simp only [andThen_next, PD.configureAsOutput]
  rw [setFunction_mapped rfl]
  rfl

/-- SYS.init with a good configuration, given or by default (46 R190, R196). -/
theorem sysInit_brings_up {s : State} {pin baud : Option Int} {p : Fin Config.npins} {rate : Nat} (hl : s.life ≠ .ready)
    (hp : pinOrDefault pin = (p.val : Nat)) (hb : baudOrDefault baud = (rate : Nat)) (hr : 0 < rate) :
    execSysInit pin baud s = .next (record (.resp (.sysInit pin baud) .ok .none) (broughtUp p rate s)) := by
  unfold execSysInit
  rw [if_neg hl, if_neg (by omega), hp, finOf_val, hb]
  simp only [Int.toNat_natCast, bringUp_eq, andThen_next]
  rfl

/-- SYS.init with a bad configuration changes nothing (46 R190, 60 R214). -/
theorem sysInit_bad_config {s : State} {pin baud : Option Int} (hl : s.life ≠ .ready)
    (h : baudOrDefault baud ≤ 0 ∨ ¬(0 ≤ pinOrDefault pin ∧ pinOrDefault pin < Config.npins)) :
    execSysInit pin baud s = .next (record (.resp (.sysInit pin baud) .eConfig .none) s) := by
  unfold execSysInit
  rw [if_neg hl]
  by_cases hb : baudOrDefault baud ≤ 0
  · rw [if_pos hb]
    rfl
  · rw [if_neg hb, finOf_none (h.resolve_left hb)]
    rfl

/-- The state after a tick emitted a slot (44 R153, R155, R156). -/
def slotSent (buf : List Byte) (f : TxFrame) (l : Level) (s : State) : State :=
  { s with
    buf := buf
    frame := some f
    out := s.out.set s.cfg.logicalPin l
    timer := some (s.now + bitPeriod s)
    state := .transmitting
    trace := s.trace ++ pinWrite s.cfg.logicalPin s.now l }

/-- What a tick can do (44 R153 to R157). -/
inductive TickEffect (s t : State) : Prop where
  | caseA (b : Byte) (rest : List Byte) (hm : s.mapped = true) (hs : s.state = .armed) (hb : s.buf = b :: rest)
      (ht : t = slotSent rest ⟨b, 0, false⟩ .low s)
  | caseB (hs : s.state = .armed) (hb : s.buf = []) (ht : t = { s with timer := none, state := .idle })
  | caseC (f f' : TxFrame) (l : Level) (hm : s.mapped = true) (hs : s.state = .transmitting) (hf : s.frame = some f)
      (hd : f.done = false) (hn : ENC.nextBit f = .ok (l, f')) (ht : t = slotSent s.buf f' l s)
  | caseD (f : TxFrame) (b : Byte) (rest : List Byte) (hm : s.mapped = true) (hs : s.state = .transmitting)
      (hf : s.frame = some f) (hd : f.done = true) (hb : s.buf = b :: rest)
      (ht : t = slotSent rest ⟨b, 0, false⟩ .low s)
  | caseE (f : TxFrame) (hs : s.state = .transmitting) (hf : s.frame = some f) (hd : f.done = true) (hb : s.buf = [])
      (ht : t = { s with timer := none, frame := none, state := .idle })

theorem emitSlot_next {s t : State} {due : Time} {f : TxFrame} (h : emitSlot due f s = .next t) :
    s.mapped = true ∧ ∃ l f', ENC.nextBit f = .ok (l, f') ∧
      t = { s with
        frame := some f'
        out := s.out.set s.cfg.logicalPin l
        timer := some (due + bitPeriod s)
        trace := s.trace ++ pinWrite s.cfg.logicalPin s.now l } := by
  unfold emitSlot at h
  split at h
  · cases h
  · rename_i l f' hn
    cases hm : s.mapped
    · rw [andThen_eq_next] at h
      obtain ⟨u, hu, -⟩ := h
      unfold PD.writeLevel at hu
      split at hu
      · rw [setBit_unmapped (by simpa using hm)] at hu
        cases hu
      · rw [clearBit_unmapped (by simpa using hm)] at hu
        cases hu
    · refine ⟨rfl, l, f', hn, ?_⟩
      rw [writeLevel_mapped (by simpa using hm), levelOf_high, andThen_next] at h
      have e := pinDriven_own l { s with frame := some f' }
      simp only at e
      rw [e] at h
      cases h
      simp [setTimer, bitPeriod, hm]

theorem startFrame_next {s t : State} {due : Time} (h : startFrame due s = .next t) :
    s.mapped = true ∧ ∃ b rest, s.buf = b :: rest ∧
      t = { s with
        buf := rest
        frame := some ⟨b, 0, false⟩
        out := s.out.set s.cfg.logicalPin .low
        timer := some (due + bitPeriod s)
        trace := s.trace ++ pinWrite s.cfg.logicalPin s.now .low } := by
  unfold startFrame MB.dequeue at h
  cases hb : s.buf with
  | nil => simp [hb] at h
  | cons b rest =>
    simp only [hb] at h
    obtain ⟨hm, l, f', hn, rfl⟩ := emitSlot_next h
    have e : ENC.nextBit (ENC.fresh b) = .ok (.low, ⟨b, 0, false⟩) := rfl
    rw [e] at hn
    cases hn
    exact ⟨hm, b, rest, rfl, rfl⟩

theorem tickCases_next {s t : State} (h : tickCases s.now (clearTimer s) = .next t) : TickEffect s t := by
  unfold tickCases at h
  split at h
  · cases h
  · rename_i hs
    split at h
    · rename_i hb
      cases h
      exact .caseB hs hb rfl
    · obtain ⟨u, hu, hk⟩ := andThen_eq_next.1 h
      obtain ⟨hm, b, rest, hb, rfl⟩ := startFrame_next hu
      cases hk
      exact .caseA b rest hm hs hb rfl
  · rename_i hs
    split at h
    · cases h
    · rename_i f hf
      split at h
      · rename_i hd
        split at h
        · rename_i hb
          cases h
          exact .caseE f hs hf hd hb rfl
        · obtain ⟨u, hu, hk⟩ := andThen_eq_next.1 h
          obtain ⟨hm, b, rest, hb, rfl⟩ := startFrame_next hu
          cases hk
          refine .caseD f b rest hm hs hf hd hb ?_
          rw [clearTimer_state] at hs
          simp [slotSent, clearTimer, bitPeriod, hs]
      · rename_i hd
        obtain ⟨u, hu, hk⟩ := andThen_eq_next.1 h
        obtain ⟨hm, l, f', hn, rfl⟩ := emitSlot_next hu
        cases hk
        refine .caseC f f' l hm hs hf (by simpa using hd) hn ?_
        rw [clearTimer_state] at hs
        simp [slotSent, clearTimer, bitPeriod, hs]

theorem tickCases_due {s : State} (hl : s.life = .ready) (ht : s.timer = some s.now) :
    exec .engTick s = tickCases s.now (clearTimer s) := by
  simp [exec, execEngTick, whenReady_ready hl, enterCallback, ht]

theorem engTick_next {s t : State} (h : exec .engTick s = .next t) :
    s.life = .ready ∧ s.timer = some s.now ∧ TickEffect s t := by
  simp only [exec, execEngTick, whenReady_eq_next] at h
  obtain ⟨hl, h⟩ := h
  unfold enterCallback at h
  split at h
  · cases h
  · rename_i due ht
    split at h
    · rename_i hn
      subst hn
      exact ⟨hl, ht, tickCases_next h⟩
    · cases h

/-- A tick leaves these fields alone. -/
theorem tickEffect_frame {s t : State} (h : TickEffect s t) :
    t.now = s.now ∧ t.inbox = s.inbox ∧ t.cfg = s.cfg ∧ t.mapped = s.mapped ∧ t.life = s.life ∧ t.fsel = s.fsel ∧
      t.openCount = s.openCount := by
  cases h <;> (rename_i e; subst e; exact ⟨rfl, rfl, rfl, rfl, rfl, rfl, rfl⟩)

/-- ENG.arm leaves these fields alone (44 R151). -/
theorem arm_frame (s : State) :
    (ENG.arm s).now = s.now ∧ (ENG.arm s).inbox = s.inbox ∧ (ENG.arm s).cfg = s.cfg ∧ (ENG.arm s).mapped = s.mapped ∧
      (ENG.arm s).life = s.life ∧ (ENG.arm s).fsel = s.fsel ∧ (ENG.arm s).out = s.out ∧ (ENG.arm s).buf = s.buf ∧
      (ENG.arm s).frame = s.frame ∧ (ENG.arm s).openCount = s.openCount ∧ (ENG.arm s).trace = s.trace := by
  unfold ENG.arm
  split <;> exact ⟨rfl, rfl, rfl, rfl, rfl, rfl, rfl, rfl, rfl, rfl, rfl⟩

/-- What an operation can do when it answers a next state. -/
def Effect (i : Instr) (s t : State) : Prop :=
  match i with
  | .rbSetFunction _ _ _ => s.life = .ready ∧ s.mapped = true ∧
      ∃ r off code, t = record (.resp i .ok .none) (fieldWritten r off code s)
  | .rbSetBit _ _ => s.life = .ready ∧ s.mapped = true ∧
      ∃ b k, t = record (.resp i .ok .none) (bitWritten b k .high s)
  | .rbClearBit _ _ => s.life = .ready ∧ s.mapped = true ∧
      ∃ b k, t = record (.resp i .ok .none) (bitWritten b k .low s)
  | .pdConfigureAsOutput _ => s.life = .ready ∧ s.mapped = true ∧
      ∃ p, t = record (.resp i .ok .none) (fieldWritten (fselIndex p) (fselOffset p) Config.funcOutput s)
  | .pdWriteLevel _ h => s.life = .ready ∧ s.mapped = true ∧
      ∃ p, t = record (.resp i .ok .none) (pinDriven p (levelOf h) s)
  | .encFresh b => s.life = .ready ∧ t = record (.resp i .ok (.frame (ENC.fresh b))) s
  | .encNextBit f => s.life = .ready ∧
      ∃ l f', ENC.nextBit f = .ok (l, f') ∧ t = record (.resp i .ok (.levelFrame l f')) s
  | .engArm => s.life = .ready ∧ t = record (.resp i .ok .none) (ENG.arm s)
  | .engCancel => s.life = .ready ∧ t = record (.resp i .ok .none) (ENG.cancel s)
  | .engTick => s.life = .ready ∧ s.timer = some s.now ∧ TickEffect s t
  | .timerSchedule d => s.life = .ready ∧ s.now ≤ d ∧ t = record (.resp i .ok .none) (setTimer d s)
  | .timerDeschedule => s.life = .ready ∧ t = record (.resp i .ok .none) (clearTimer s)
  | .mbEnqueue bs => s.life = .ready ∧
      ((Config.capacity < bs.length ∧ t = record (.resp i .eOversize .none) s) ∨
       (bs.length ≤ Config.capacity ∧ s.state ≠ .idle ∧ t = record (.resp i .eBusy .none) s) ∨
       (bs.length ≤ Config.capacity ∧ s.state = .idle ∧ t = record (.resp i .ok .none) { s with buf := bs }))
  | .mbConsume => s.life = .ready ∧ t = record (.resp i .ok (.bytes s.buf s.buf.length)) { s with buf := [] }
  | .mbIsEmpty => s.life = .ready ∧ t = record (.resp i .ok (.flag s.buf.isEmpty)) s
  | .mbDequeue => s.life = .ready ∧
      ∃ b rest, s.buf = b :: rest ∧ t = record (.resp i .ok (.byte b)) { s with buf := rest }
  | .sysInit pin baud => s.life ≠ .ready ∧
      (((baudOrDefault baud ≤ 0 ∨ finOf Config.npins (pinOrDefault pin) = none) ∧ t = record (.resp i .eConfig .none) s) ∨
       ∃ (p : Fin Config.npins) (rate : Nat), 0 < rate ∧ pinOrDefault pin = (p.val : Nat) ∧ baudOrDefault baud = (rate : Nat) ∧
         t = record (.resp i .ok .none) (broughtUp p rate s))
  | .sysTeardown => s.life = .ready ∧ t = record (.resp i .ok .none) (SYS.teardown s)
  | .devOpen => s.life = .ready ∧ t = record (.resp i .ok .none) { s with openCount := s.openCount + 1 }
  | .devWrite d n => s.life = .ready ∧ n = d.length ∧
      ((Config.capacity < (messageText d n).length ∧ t = record (.resp i .eOversize .none) s) ∨
       ((messageText d n).length ≤ Config.capacity ∧ s.state ≠ .idle ∧ t = record (.resp i .eBusy .none) s) ∨
       ((messageText d n).length ≤ Config.capacity ∧ s.state = .idle ∧
         t = record (.resp i .ok (.count n)) (ENG.arm { s with buf := messageText d n })))
  | .devRead cap _ => s.life = .ready ∧
      (t = record (.resp i .eFault .none) s ∨
       t = record (.resp i .ok (.bytes (s.buf.take (min cap s.buf.length)) (min cap s.buf.length))) { s with buf := [] })
  | .devClose => s.life = .ready ∧ t = record (.resp i .ok .none) s

theorem setFunction_next {s t : State} {r : Fin Config.nfsel} {off : Nat} {code : BitVec 3}
    (h : RB.setFunction r off code s = .next t) : s.mapped = true ∧ t = fieldWritten r off code s := by
  cases hm : s.mapped
  · rw [setFunction_unmapped hm] at h
    cases h
  · rw [setFunction_mapped hm] at h
    cases h
    exact ⟨rfl, rfl⟩

theorem setBit_next {s t : State} {b : Fin Config.nbank} {k : Fin 32} (h : RB.setBit b k s = .next t) :
    s.mapped = true ∧ t = bitWritten b k .high s := by
  cases hm : s.mapped
  · rw [setBit_unmapped hm] at h
    cases h
  · rw [setBit_mapped hm] at h
    cases h
    exact ⟨rfl, rfl⟩

theorem clearBit_next {s t : State} {b : Fin Config.nbank} {k : Fin 32} (h : RB.clearBit b k s = .next t) :
    s.mapped = true ∧ t = bitWritten b k .low s := by
  cases hm : s.mapped
  · rw [clearBit_unmapped hm] at h
    cases h
  · rw [clearBit_mapped hm] at h
    cases h
    exact ⟨rfl, rfl⟩

theorem writeLevel_next {s t : State} {p : Fin Config.npins} {b : Bool} (h : PD.writeLevel p b s = .next t) :
    s.mapped = true ∧ t = pinDriven p (levelOf b) s := by
  cases b
  · obtain ⟨hm, rfl⟩ := clearBit_next h
    exact ⟨hm, bitWritten_pin p .low s⟩
  · obtain ⟨hm, rfl⟩ := setBit_next h
    exact ⟨hm, bitWritten_pin p .high s⟩

/-- Each operation, when it answers a next state, has one of the effects listed for it. -/
theorem exec_effect {i : Instr} {s t : State} (h : exec i s = .next t) : Effect i s t := by
  cases i with
  | rbSetFunction r off code =>
    simp only [exec, execRbSetFunction, whenReady_eq_next] at h
    obtain ⟨hl, h⟩ := h
    split at h
    · obtain ⟨u, hu, hk⟩ := andThen_eq_next.1 h
      obtain ⟨hm, rfl⟩ := setFunction_next hu
      exact ⟨hl, hm, _, _, _, reply_eq_next.1 hk⟩
    · cases h
  | rbSetBit b k =>
    simp only [exec, execRbSetBit, whenReady_eq_next] at h
    obtain ⟨hl, h⟩ := h
    split at h
    · obtain ⟨u, hu, hk⟩ := andThen_eq_next.1 h
      obtain ⟨hm, rfl⟩ := setBit_next hu
      exact ⟨hl, hm, _, _, reply_eq_next.1 hk⟩
    · cases h
  | rbClearBit b k =>
    simp only [exec, execRbClearBit, whenReady_eq_next] at h
    obtain ⟨hl, h⟩ := h
    split at h
    · obtain ⟨u, hu, hk⟩ := andThen_eq_next.1 h
      obtain ⟨hm, rfl⟩ := clearBit_next hu
      exact ⟨hl, hm, _, _, reply_eq_next.1 hk⟩
    · cases h
  | pdConfigureAsOutput p =>
    simp only [exec, execPdConfigureAsOutput, whenReady_eq_next] at h
    obtain ⟨hl, h⟩ := h
    split at h
    · obtain ⟨u, hu, hk⟩ := andThen_eq_next.1 h
      obtain ⟨hm, rfl⟩ := setFunction_next hu
      exact ⟨hl, hm, _, reply_eq_next.1 hk⟩
    · cases h
  | pdWriteLevel p b =>
    simp only [exec, execPdWriteLevel, whenReady_eq_next] at h
    obtain ⟨hl, h⟩ := h
    split at h
    · obtain ⟨u, hu, hk⟩ := andThen_eq_next.1 h
      obtain ⟨hm, rfl⟩ := writeLevel_next hu
      exact ⟨hl, hm, _, reply_eq_next.1 hk⟩
    · cases h
  | encFresh b =>
    simp only [exec, execEncFresh, whenReady_eq_next, reply_eq_next] at h
    exact h
  | encNextBit f =>
    simp only [exec, execEncNextBit, whenReady_eq_next] at h
    obtain ⟨hl, h⟩ := h
    split at h
    · rename_i l f' hn
      exact ⟨hl, l, f', hn, reply_eq_next.1 h⟩
    · cases h
  | engArm =>
    simp only [exec, execEngArm, whenReady_eq_next, reply_eq_next] at h
    exact h
  | engCancel =>
    simp only [exec, execEngCancel, whenReady_eq_next, reply_eq_next] at h
    exact h
  | engTick => exact engTick_next h
  | timerSchedule d =>
    simp only [exec, execTimerSchedule, whenReady_eq_next] at h
    obtain ⟨hl, h⟩ := h
    split at h
    · cases h
    · rename_i hd
      exact ⟨hl, not_lt.1 hd, reply_eq_next.1 h⟩
  | timerDeschedule =>
    simp only [exec, execTimerDeschedule, whenReady_eq_next, reply_eq_next] at h
    exact h
  | mbEnqueue bs =>
    simp only [exec, execMbEnqueue, whenReady_eq_next, reply_eq_next] at h
    obtain ⟨hl, rfl⟩ := h
    refine ⟨hl, ?_⟩
    unfold MB.enqueue
    by_cases h1 : bs.length > Config.capacity
    · exact .inl ⟨h1, by simp [h1]⟩
    · by_cases h2 : s.state = .idle
      · exact .inr (.inr ⟨Nat.not_lt.1 h1, h2, by simp [h1, h2]⟩)
      · exact .inr (.inl ⟨Nat.not_lt.1 h1, h2, by simp [h1, h2]⟩)
  | mbConsume =>
    simp only [exec, execMbConsume, MB.consume, whenReady_eq_next, reply_eq_next] at h
    exact h
  | mbIsEmpty =>
    simp only [exec, execMbIsEmpty, MB.isEmpty, whenReady_eq_next, reply_eq_next] at h
    exact h
  | mbDequeue =>
    simp only [exec, execMbDequeue, MB.dequeue, whenReady_eq_next] at h
    obtain ⟨hl, h⟩ := h
    cases hb : s.buf with
    | nil => simp [hb] at h
    | cons b rest =>
      simp only [hb, reply_eq_next] at h
      exact ⟨hl, b, rest, hb, h⟩
  | sysInit p b =>
    simp only [exec, execSysInit] at h
    split at h
    · cases h
    · rename_i hl
      refine ⟨hl, ?_⟩
      split at h
      · rename_i hb
        exact .inl ⟨.inl hb, reply_eq_next.1 h⟩
      · rename_i hb
        split at h
        · rename_i hq
          exact .inl ⟨.inr hq, reply_eq_next.1 h⟩
        · rename_i q hq
          rw [bringUp_eq, andThen_next, reply_eq_next] at h
          exact .inr ⟨q, (baudOrDefault b).toNat, by omega, finOf_some hq, by omega, h⟩
  | sysTeardown =>
    simp only [exec, execSysTeardown, whenReady_eq_next, reply_eq_next] at h
    exact h
  | devOpen =>
    simp only [exec, execDevOpen, whenReady_eq_next, reply_eq_next] at h
    exact h
  | devWrite d n =>
    simp only [exec, execDevWrite, whenReady_eq_next] at h
    obtain ⟨hl, h⟩ := h
    split at h
    · cases h
    · rename_i hn
      refine ⟨hl, not_not.1 hn, ?_⟩
      unfold MB.enqueue at h
      by_cases h1 : (messageText d n).length > Config.capacity
      · simp only [if_pos h1, reply_eq_next] at h
        exact .inl ⟨h1, h⟩
      · by_cases h2 : s.state = .idle
        · simp only [if_neg h1, h2, ne_eq, not_true_eq_false, if_false, reply_eq_next] at h
          exact .inr (.inr ⟨Nat.not_lt.1 h1, h2, by rw [h, h2]⟩)
        · simp only [if_neg h1, ne_eq, h2, not_false_eq_true, if_true, reply_eq_next] at h
          exact .inr (.inl ⟨Nat.not_lt.1 h1, h2, h⟩)
  | devRead cap ok =>
    simp only [exec, execDevRead, whenReady_eq_next] at h
    obtain ⟨hl, h⟩ := h
    refine ⟨hl, ?_⟩
    split at h
    · exact .inl (reply_eq_next.1 h)
    · exact .inr (reply_eq_next.1 h)
  | devClose =>
    simp only [exec, execDevClose, whenReady_eq_next, reply_eq_next] at h
    exact h

/-- No operation moves the clock (10 R36): only the environment does. -/
theorem effect_now {i : Instr} {s t : State} (he : Effect i s t) : t.now = s.now := by
  cases i <;> simp only [Effect] at he
  case engTick => exact (tickEffect_frame he.2.2).1
  case sysInit => obtain ⟨-, ⟨-, rfl⟩ | ⟨p, rate, -, -, -, rfl⟩⟩ := he <;> rfl
  case engArm => obtain ⟨-, rfl⟩ := he; exact (arm_frame s).1
  case devWrite =>
    obtain ⟨-, -, ⟨-, rfl⟩ | ⟨-, -, rfl⟩ | ⟨-, -, rfl⟩⟩ := he
    · rfl
    · rfl
    · exact (arm_frame _).1
  case mbEnqueue => obtain ⟨-, ⟨-, rfl⟩ | ⟨-, -, rfl⟩ | ⟨-, -, rfl⟩⟩ := he <;> rfl
  case devRead => obtain ⟨-, rfl | rfl⟩ := he <;> rfl
  case rbSetFunction => obtain ⟨-, -, r, o, c, rfl⟩ := he; simp [fieldWritten]
  case rbSetBit => obtain ⟨-, -, r, o, rfl⟩ := he; simp [bitWritten]
  case rbClearBit => obtain ⟨-, -, r, o, rfl⟩ := he; simp [bitWritten]
  case pdConfigureAsOutput => obtain ⟨-, -, r, rfl⟩ := he; simp [fieldWritten]
  case pdWriteLevel => obtain ⟨-, -, r, rfl⟩ := he; simp [pinDriven]
  case encNextBit => obtain ⟨-, l, f, -, rfl⟩ := he; rfl
  case mbDequeue => obtain ⟨-, l, f, -, rfl⟩ := he; rfl
  case timerSchedule => obtain ⟨-, -, rfl⟩ := he; rfl
  all_goals (obtain ⟨-, rfl⟩ := he; rfl)

end Sys2Proof.Machine
end

