-- ==== Sys2Proof/Laws/PerInstr.lean ====
section
/-!
SUPPORT. The statements made of every operation one by one: the operands beside a selector are those of spec
30_encoding.md R92.
-/

namespace Sys2Proof

/-- The selector of `i` is a row of the table of 30 R91, and its operands are of types that row may be written with
(30 R92, 46 R196). -/
def Laws.OperandLayout.Statement (i : Instr) : Prop :=
  ∃ op, opcodeOf i.selector = some op ∧ i.operands.map Operand.kind ∈ op.forms

theorem Laws.OperandLayout.rbSetFunction (r off code : Int) :
    Laws.OperandLayout.Statement (.rbSetFunction r off code) := ⟨.rbSetFunction, rfl, .head _⟩

theorem Laws.OperandLayout.rbSetBit (b k : Int) : Laws.OperandLayout.Statement (.rbSetBit b k) := ⟨.rbSetBit, rfl, .head _⟩

theorem Laws.OperandLayout.rbClearBit (b k : Int) : Laws.OperandLayout.Statement (.rbClearBit b k) :=
  ⟨.rbClearBit, rfl, .head _⟩

theorem Laws.OperandLayout.pdConfigureAsOutput (p : Int) : Laws.OperandLayout.Statement (.pdConfigureAsOutput p) :=
  ⟨.pdConfigureAsOutput, rfl, .head _⟩

theorem Laws.OperandLayout.pdWriteLevel (p : Int) (h : Bool) : Laws.OperandLayout.Statement (.pdWriteLevel p h) :=
  ⟨.pdWriteLevel, rfl, .head _⟩

theorem Laws.OperandLayout.encFresh (b : Byte) : Laws.OperandLayout.Statement (.encFresh b) := ⟨.encFresh, rfl, .head _⟩

theorem Laws.OperandLayout.encNextBit (f : TxFrame) : Laws.OperandLayout.Statement (.encNextBit f) :=
  ⟨.encNextBit, rfl, .head _⟩

theorem Laws.OperandLayout.engArm : Laws.OperandLayout.Statement .engArm := ⟨.engArm, rfl, .head _⟩

theorem Laws.OperandLayout.engCancel : Laws.OperandLayout.Statement .engCancel := ⟨.engCancel, rfl, .head _⟩

theorem Laws.OperandLayout.engTick : Laws.OperandLayout.Statement .engTick := ⟨.engTick, rfl, .head _⟩

theorem Laws.OperandLayout.timerSchedule (d : Time) : Laws.OperandLayout.Statement (.timerSchedule d) :=
  ⟨.timerSchedule, rfl, .head _⟩

theorem Laws.OperandLayout.timerDeschedule : Laws.OperandLayout.Statement .timerDeschedule :=
  ⟨.timerDeschedule, rfl, .head _⟩

theorem Laws.OperandLayout.mbEnqueue (bs : List Byte) : Laws.OperandLayout.Statement (.mbEnqueue bs) :=
  ⟨.mbEnqueue, rfl, .head _⟩

theorem Laws.OperandLayout.mbConsume : Laws.OperandLayout.Statement .mbConsume := ⟨.mbConsume, rfl, .head _⟩

theorem Laws.OperandLayout.mbIsEmpty : Laws.OperandLayout.Statement .mbIsEmpty := ⟨.mbIsEmpty, rfl, .head _⟩

theorem Laws.OperandLayout.mbDequeue : Laws.OperandLayout.Statement .mbDequeue := ⟨.mbDequeue, rfl, .head _⟩

theorem Laws.OperandLayout.sysInit (p b : Option Int) : Laws.OperandLayout.Statement (.sysInit p b) :=
  ⟨.sysInit, rfl, by
    cases p <;> cases b <;>
      simp [Instr.operands, initOperands, Opcode.forms, Opcode.kinds, Operand.kind]⟩

theorem Laws.OperandLayout.sysTeardown : Laws.OperandLayout.Statement .sysTeardown := ⟨.sysTeardown, rfl, .head _⟩

theorem Laws.OperandLayout.devOpen : Laws.OperandLayout.Statement .devOpen := ⟨.devOpen, rfl, .head _⟩

theorem Laws.OperandLayout.devWrite (d : List Byte) (n : Nat) : Laws.OperandLayout.Statement (.devWrite d n) :=
  ⟨.devWrite, rfl, .head _⟩

theorem Laws.OperandLayout.devRead (c : Nat) (ok : Bool) : Laws.OperandLayout.Statement (.devRead c ok) :=
  ⟨.devRead, rfl, .head _⟩

theorem Laws.OperandLayout.devClose : Laws.OperandLayout.Statement .devClose := ⟨.devClose, rfl, .head _⟩

end Sys2Proof
end

