-- ==== Sys2Proof/Laws/Step.lean ====
section
/-!
SUPPORT. What a step can do, said once: if `step s` answers a next state `t`, then `StepEffect s t`.
-/

namespace Sys2Proof.Machine

theorem toDue_none {s : State} (h : s.timer = none) : toDue s = s := by simp [toDue, h]

theorem toDue_due {s : State} {due : Time} (h : s.timer = some due) (hn : s.now ≤ due) :
    toDue s = { s with now := due } := by simp [toDue, h, hn]

theorem toDue_late {s : State} {due : Time} (h : s.timer = some due) (hn : ¬ s.now ≤ due) : toDue s = s := by
  simp [toDue, h, hn]

/-- A tick that fires was pending and not yet past: it runs at its due time (44 R152). -/
theorem fireTick_next {s t : State} (h : fireTick s = .next t) :
    ∃ due, s.timer = some due ∧ s.now ≤ due ∧ s.life = .ready ∧ TickEffect { s with now := due } t := by
  unfold fireTick at h
  obtain ⟨hl, ht, he⟩ := engTick_next h
  cases hs : s.timer with
  | none => rw [toDue_none hs, hs] at ht; cases ht
  | some due =>
    by_cases hn : s.now ≤ due
    · rw [toDue_due hs hn] at hl he
      rw [hs] at he
      exact ⟨due, rfl, hn, hl, he⟩
    · rw [toDue_late hs hn, hs] at ht
      cases ht
      exact absurd (le_refl _) hn

/-- What a step can do (20 R70, 10 R43). -/
inductive StepEffect (s t : State) : Prop where
  | idle (hi : s.inbox = []) (ht : s.timer = none) (e : t = s)
  | tick (due : Time) (hd : s.timer = some due) (hn : s.now ≤ due) (hl : s.life = .ready)
      (he : TickEffect { s with now := due } t)
  | issuedTick (ctx : Context) (cmd : Command) (rest : List Event) (due : Time)
      (hi : s.inbox = .call ctx cmd :: rest) (hc : decode cmd = .ok .engTick) (hd : s.timer = some due)
      (hn : s.now ≤ due) (hl : s.life = .ready) (he : TickEffect { s with inbox := rest, now := due } t)
  | elapsed (u : Time) (rest : List Event) (hi : s.inbox = .elapse u :: rest) (hu : s.now ≤ u)
      (hd : ∀ due, s.timer = some due → u ≤ due) (e : t = { s with now := u, inbox := rest })
  | outsideFsel (i : Fin Config.nfsel) (v : Word) (rest : List Event) (hi : s.inbox = .outsideFsel i v :: rest)
      (hf : s.life = .ready → pinField t = pinField s) (e : t = { s with fsel := s.fsel.set i v, inbox := rest })
  | outsideLatch (p : Fin Config.npins) (l : Level) (rest : List Event) (hi : s.inbox = .outsideLatch p l :: rest)
      (hp : s.life = .ready → p ≠ s.cfg.logicalPin) (e : t = { s with out := s.out.set p l, inbox := rest })
  | call (ctx : Context) (cmd : Command) (rest : List Event) (i : Instr) (hi : s.inbox = .call ctx cmd :: rest)
      (hc : decode cmd = .ok i) (hx : ctx ∈ i.contexts) (ht : i ≠ .engTick) (he : Effect i { s with inbox := rest } t)

theorem step_effect {s t : State} (h : step s = .next t) : StepEffect s t := by
  unfold step at h
  split at h
  · rename_i hi
    unfold idleStep callbackPending at h
    split at h
    · obtain ⟨due, hd, hn, hl, he⟩ := fireTick_next h
      exact .tick due hd hn hl he
    · rename_i ht
      cases h
      exact .idle hi (by simpa using ht) rfl
  · rename_i u rest hi
    unfold elapse at h
    split at h
    · cases h
    · rename_i hu
      split at h
      · rename_i due hd
        split at h
        · obtain ⟨due, hd, hn, hl, he⟩ := fireTick_next h
          exact .tick due hd hn hl he
        · rename_i hdu
          cases h
          refine .elapsed u rest hi (not_lt.1 hu) ?_ rfl
          intro d e
          rw [hd] at e
          cases e
          exact not_lt.1 hdu
      · rename_i hd
        cases h
        exact .elapsed u rest hi (not_lt.1 hu) (by simp [hd]) rfl
  · rename_i i v rest hi
    unfold Machine.outsideFsel at h
    simp only at h
    split at h
    · cases h
    · rename_i hf
      cases h
      exact .outsideFsel i v rest hi (fun hl => by by_contra hne; exact hf ⟨hl, hne⟩) rfl
  · rename_i p l rest hi
    unfold Machine.outsideLatch at h
    split at h
    · cases h
    · rename_i hf
      cases h
      exact .outsideLatch p l rest hi (fun hl hp => hf ⟨hl, hp⟩) rfl
  · rename_i ctx cmd rest hi
    split at h
    · cases h
    · rename_i i hf
      unfold fetch at hf
      split at hf
      · cases hf
      · rename_i j hc
        split at hf
        · rename_i hx
          cases hf
          by_cases ht : i = .engTick
          · subst ht
            obtain ⟨due, hd, hn, hl, he⟩ := fireTick_next (s := { s with inbox := rest }) h
            exact .issuedTick ctx cmd rest due hi hc hd hn hl he
          · have e : issued i rest s = { s with inbox := rest } := by
              cases i <;> first | rfl | exact absurd rfl ht
            rw [e] at h
            exact .call ctx cmd rest i hi hc hx ht (exec_effect h)
        · cases hf

end Sys2Proof.Machine
end

