-- ==== Sys2Proof/Tests/Slice0.lean ====
section
/-!
SUPPORT. Tests against spec 95_test_vectors.md and the worked examples of the rules (each expected result is the
spec's), the ill-formed terms each check of WellFormed refuses, and for every obligation with hypotheses a concrete
state and operands that meet them (theorems `witness_…`).
-/

namespace Sys2Proof.Tests

-- The many small tests are elaborated one after another, so that compiling this file needs few threads.
set_option Elab.async false

open Sys2Proof.Machine

/-! ## Small states -/

/-- The function-select register number `n`. -/
def fselNo (n : Nat) (h : n < Config.nfsel := by decide) : Fin Config.nfsel := ⟨n, h⟩

/-- The strobe bank number `n`. -/
def bankNo (n : Nat) (h : n < Config.nbank := by decide) : Fin Config.nbank := ⟨n, h⟩

/-- A READY block on pin 4 at 4800 bit/s, as SYS.init leaves it from FSEL[0] = 0 (95 P1). -/
def ready : State :=
  { State.reset with
    life := .ready, mapped := true, fsel := State.reset.fsel.set 0 0x1000#32, out := State.reset.out.set 4 .high }

/-- `ready` with a payload. -/
def loaded : State := { ready with buf := [0xB2#8, 0x00#8] }

/-- `loaded`, armed, and the first callback due now. -/
def armedDue : State := { loaded with state := .armed, timer := some (1 / 4800), now := 1 / 4800 }

/-- A frame of 0xB2 in progress, its callback due now, one byte behind it. -/
def sending (i : Int) (done : Bool) (buf : List Byte) : State :=
  { ready with
    buf := buf, frame := some ⟨0xB2#8, i, done⟩, state := .transmitting, timer := some (1 / 4800), now := 1 / 4800 }

/-- `s` with a word in FSEL[i]. -/
def withFsel (i : Fin Config.nfsel) (w : Word) (s : State) : State := { s with fsel := s.fsel.set i w }

/-- The outcome is a next state for which `p` holds. -/
def next? (o : Out) (p : State → Bool) : Bool :=
  match o with
  | .next t => p t
  | .fault _ => false
  | .refused _ => false

/-- The outcome is this fault. -/
def fault? (o : Out) (f : Fault) : Bool :=
  match o with
  | .next _ => false
  | .fault g => decide (f = g)
  | .refused _ => false

/-- The outcome is this refusal. -/
def refused? (o : Out) (r : Refusal) : Bool :=
  match o with
  | .next _ => false
  | .fault _ => false
  | .refused q => decide (r = q)

/-- The events an operation appended to the trace of `s`. -/
def added (s t : State) : List TraceEvent := (t.trace.drop s.trace.length).map Stamped.event

/-! ## WellFormed: an ill-formed term for each check -/

theorem test_wf_setFunction_register : (Instr.rbSetFunction 6 0 1).wf = false := by decide
theorem test_wf_setFunction_offset : (Instr.rbSetFunction 0 13 1).wf = false := by decide
theorem test_wf_setFunction_offset_high : (Instr.rbSetFunction 0 30 1).wf = false := by decide
theorem test_wf_setFunction_code : (Instr.rbSetFunction 0 12 8).wf = false := by decide
theorem test_wf_setBit_bank : (Instr.rbSetBit 2 0).wf = false := by decide
theorem test_wf_setBit_position : (Instr.rbSetBit 0 32).wf = false := by decide
theorem test_wf_clearBit_bank : (Instr.rbClearBit (-1) 0).wf = false := by decide
theorem test_wf_clearBit_position : (Instr.rbClearBit 0 (-1)).wf = false := by decide
theorem test_wf_configure_pin : (Instr.pdConfigureAsOutput 54).wf = false := by decide
theorem test_wf_writeLevel_pin : (Instr.pdWriteLevel (-1) true).wf = false := by decide
theorem test_wf_nextBit_done : (Instr.encNextBit ⟨0#8, 8, true⟩).wf = false := by decide
theorem test_wf_nextBit_index : (Instr.encNextBit ⟨0#8, 9, false⟩).wf = false := by decide
theorem test_wf_frame_done_index : TxFrame.legal ⟨0#8, 7, true⟩ = false := by decide
theorem test_wf_write_length : (Instr.devWrite [0x61#8] 2).wf = false := by decide

/-! ## Decoding: a word of every row of 30 R91, written out -/

theorem test_decode_rb :
    decode ⟨0b00010000#8, [.int 0, .int 12, .int 1]⟩ = .ok (.rbSetFunction 0 12 1) ∧
    decode ⟨0b00010001#8, [.int 0, .int 4]⟩ = .ok (.rbSetBit 0 4) ∧
    decode ⟨0b00010010#8, [.int 1, .int 0]⟩ = .ok (.rbClearBit 1 0) := by decide

theorem test_decode_pd :
    decode ⟨0b00100000#8, [.int 17]⟩ = .ok (.pdConfigureAsOutput 17) ∧
    decode ⟨0b00100001#8, [.int 4, .flag false]⟩ = .ok (.pdWriteLevel 4 false) := by decide

theorem test_decode_enc :
    decode ⟨0b00110000#8, [.byte 0xB2#8]⟩ = .ok (.encFresh 0xB2#8) ∧
    decode ⟨0b00110001#8, [.frame ⟨0xB2#8, 1, false⟩]⟩ = .ok (.encNextBit ⟨0xB2#8, 1, false⟩) := by decide

theorem test_decode_eng :
    decode ⟨0b01000000#8, []⟩ = .ok .engArm ∧
    decode ⟨0b01000001#8, []⟩ = .ok .engCancel ∧
    decode ⟨0b01000010#8, []⟩ = .ok .engTick ∧
    decode ⟨0b01000011#8, [.time 1]⟩ = .ok (.timerSchedule 1) ∧
    decode ⟨0b01000100#8, []⟩ = .ok .timerDeschedule := ⟨rfl, rfl, rfl, rfl, rfl⟩

theorem test_decode_mb :
    decode ⟨0b01010000#8, [.bytes [0x61#8]]⟩ = .ok (.mbEnqueue [0x61#8]) ∧
    decode ⟨0b01010001#8, []⟩ = .ok .mbConsume ∧
    decode ⟨0b01010010#8, []⟩ = .ok .mbIsEmpty ∧
    decode ⟨0b01010011#8, []⟩ = .ok .mbDequeue := by decide

theorem test_decode_sys :
    decode ⟨0b01100000#8, [.int 4, .int 4800]⟩ = .ok (.sysInit (some 4) (some 4800)) ∧
    decode ⟨0b01100000#8, []⟩ = .ok (.sysInit none none) ∧
    decode ⟨0b01100000#8, [.int 17]⟩ = .ok (.sysInit (some 17) none) ∧
    decode ⟨0b01100000#8, [.omitted, .int 9600]⟩ = .ok (.sysInit none (some 9600)) ∧
    decode ⟨0b01100001#8, []⟩ = .ok .sysTeardown := by decide

theorem test_decode_dev :
    decode ⟨0b01110000#8, []⟩ = .ok .devOpen ∧
    decode ⟨0b01110001#8, [.bytes [0x61#8], .nat 1]⟩ = .ok (.devWrite [0x61#8] 1) ∧
    decode ⟨0b01110010#8, [.nat 64, .flag true]⟩ = .ok (.devRead 64 true) ∧
    decode ⟨0b01110011#8, []⟩ = .ok .devClose := by decide

theorem test_decode_rejects :
    decode ⟨0b00010011#8, []⟩ = .error (.unassignedSelector 0x13#8) ∧
    decode ⟨0b01000000#8, [.int 0]⟩ = .error (.operandMismatch 0x40#8) := by decide

theorem test_table_word :
    decodeTableWord 8 0x40 = some .engArm ∧ decodeTableWord 8 0x13 = none ∧
    decodeTableWord 8 0x60 = some (.sysInit (some 0) (some 0)) := by decide

/-! ## One step, against spec 95 -/

theorem test_setFunction_keeps_other_bits :
    next? (exec (.rbSetFunction 0 12 1) (withFsel (fselNo 0) 0xDEADBEEF#32 ready)) (fun t =>
      t.fsel[0] == 0xDEAD9EEF#32 && t.fsel[1] == 0#32 &&
      added ready t == [.regRead (.fsel (fselNo 0)), .regWrite (.fsel (fselNo 0)) 0xDEAD9EEF#32, .resp (.rbSetFunction 0 12 1) .ok .none])
      = true := by decide +kernel

theorem test_setFunction_keeps_top_bits :
    next? (exec (.rbSetFunction 0 27 1) (withFsel (fselNo 0) 0xFFFFFFFF#32 ready)) (fun t => t.fsel[0] == 0xCFFFFFFF#32) = true := by
  decide +kernel

theorem test_setBit_last_pin :
    next? (exec (.rbSetBit 1 21) ready) (fun t => t.out[53] == .high && t.out[52] == .low &&
      added ready t == [.regWrite (.set (bankNo 1)) 0x00200000#32, .resp (.rbSetBit 1 21) .ok .none]) = true := by decide +kernel

theorem test_setBit_no_pin :
    next? (exec (.rbSetBit 1 31) ready) (fun t => t.out == ready.out &&
      added ready t == [.regWrite (.set (bankNo 1)) 0x80000000#32, .resp (.rbSetBit 1 31) .ok .none]) = true := by decide +kernel

theorem test_clearBit_own_pin :
    next? (exec (.rbClearBit 0 4) ready) (fun t => t.out[4] == .low && line t == .driven .low &&
      added ready t == [.regWrite (.clr (bankNo 0)) 0x10#32, .level .low, .resp (.rbClearBit 0 4) .ok .none]) = true := by
  decide +kernel

theorem test_clearBit_unmapped :
    fault? (exec (.rbClearBit 0 4) { ready with mapped := false }) (.unmapped (.clr (bankNo 0)) (.rbClearBit 0 4)) = true := by
  decide +kernel

theorem test_configure_pin_four :
    next? (exec (.pdConfigureAsOutput 4) (withFsel (fselNo 0) 0xFFFFFFFF#32 ready)) (fun t => t.fsel[0] == 0xFFFF9FFF#32) = true := by
  decide +kernel

theorem test_configure_pin_fifty_three :
    next? (exec (.pdConfigureAsOutput 53) (withFsel (fselNo 5) 0xFFFFFFFF#32 ready)) (fun t => t.fsel[5] == 0xFFFFF3FF#32) = true := by
  decide +kernel

theorem test_writeLevel_low :
    next? (exec (.pdWriteLevel 4 false) ready) (fun t => t.out[4] == .low &&
      added ready t == [.regWrite (.clr (bankNo 0)) 0x10#32, .level .low, .resp (.pdWriteLevel 4 false) .ok .none]) = true := by
  decide +kernel

theorem test_writeLevel_other_bank :
    next? (exec (.pdWriteLevel 53 true) ready) (fun t => t.out[53] == .high &&
      added ready t == [.regWrite (.set (bankNo 1)) 0x00200000#32, .resp (.pdWriteLevel 53 true) .ok .none]) = true := by
  decide +kernel

theorem test_fresh :
    next? (exec (.encFresh 0x41#8) ready) (fun t => added ready t ==
      [.resp (.encFresh 0x41#8) .ok (.frame ⟨0x41#8, -1, false⟩)]) = true := by decide +kernel

theorem test_nextBit_data :
    next? (exec (.encNextBit ⟨0xB2#8, 1, false⟩) ready) (fun t => added ready t ==
      [.resp (.encNextBit ⟨0xB2#8, 1, false⟩) .ok (.levelFrame .high ⟨0xB2#8, 2, false⟩)]) = true := by decide +kernel

theorem test_nextBit_stop :
    next? (exec (.encNextBit ⟨0x41#8, 8, false⟩) ready) (fun t => added ready t ==
      [.resp (.encNextBit ⟨0x41#8, 8, false⟩) .ok (.levelFrame .high ⟨0x41#8, 8, true⟩)]) = true := by decide +kernel

/-- 95 S6: the frame of 0b10110010. -/
theorem test_frame_of_B2 :
    frameLevels 0xB2#8 = [.low, .low, .high, .low, .low, .high, .high, .low, .high, .high] ∧
    emit 10 (ENC.fresh 0xB2#8) = some (frameLevels 0xB2#8, ⟨0xB2#8, 8, true⟩) := by decide

/-- 95 part 2: frameWord. -/
theorem test_frameWord :
    frameWord 0xB2#8 = 0x364#10 ∧ frameWord 0x00#8 = 0x200#10 ∧ frameWord 0xFF#8 = 0x3FE#10 ∧
    frameWord 0x61#8 = 0x2C2#10 := by decide

theorem test_arm :
    next? (exec .engArm loaded) (fun t => decide (t.state = .armed ∧ t.timer = some (1 / 4800) ∧ t.buf = loaded.buf)) = true := by
  decide +kernel

theorem test_arm_empty : next? (exec .engArm ready) (fun t => decide (t.state = .idle ∧ t.timer = none)) = true := by
  decide +kernel

theorem test_tick_first_frame :
    next? (exec .engTick armedDue) (fun t => decide (t.state = .transmitting ∧ t.buf = [0x00#8] ∧
      t.frame = some ⟨0xB2#8, 0, false⟩ ∧ t.timer = some (2 / 4800) ∧ line t = .driven .low ∧
      added armedDue t = [.regWrite (.clr (bankNo 0)) 0x10#32, .level .low])) = true := by decide +kernel

theorem test_tick_stop_then_next :
    next? (exec .engTick (sending 8 false [0x00#8])) (fun t => decide (t.frame = some ⟨0xB2#8, 8, true⟩ ∧
      t.timer = some (2 / 4800) ∧ line t = .driven .high ∧ t.buf = [0x00#8])) = true ∧
    next? (exec .engTick (sending 8 true [0x00#8])) (fun t => decide (t.frame = some ⟨0x00#8, 0, false⟩ ∧
      t.buf = [] ∧ line t = .driven .low ∧ t.timer = some (2 / 4800))) = true := by decide +kernel

theorem test_cancel :
    next? (exec .engCancel (sending 3 false [0xFF#8])) (fun t => decide (t.state = .idle ∧ t.frame = none ∧
      t.timer = none ∧ t.buf = [0xFF#8] ∧ t.out = (sending 3 false [0xFF#8]).out)) = true := by decide +kernel

theorem test_schedule :
    next? (exec (.timerSchedule 2) ready) (fun t => decide (t.timer = some 2)) = true := by decide +kernel

theorem test_deschedule : next? (exec .timerDeschedule armedDue) (fun t => decide (t.timer = none)) = true := by
  decide +kernel

theorem test_enqueue_replaces :
    next? (exec (.mbEnqueue [0x61#8]) loaded) (fun t => decide (t.buf = [0x61#8])) = true := by decide +kernel

theorem test_enqueue_oversize_before_busy :
    next? (exec (.mbEnqueue (List.replicate 257 0xAA#8)) armedDue) (fun t => decide (t.buf = armedDue.buf ∧
      (added armedDue t).getLast? = some (.resp (.mbEnqueue (List.replicate 257 0xAA#8)) .eOversize .none))) = true := by
  decide +kernel

theorem test_consume :
    next? (exec .mbConsume loaded) (fun t => decide (t.buf = [] ∧
      added loaded t = [.resp .mbConsume .ok (.bytes [0xB2#8, 0x00#8] 2)])) = true := by decide +kernel

theorem test_isEmpty :
    next? (exec .mbIsEmpty ready) (fun t => decide (added ready t = [.resp .mbIsEmpty .ok (.flag true)])) = true := by
  decide +kernel

theorem test_dequeue :
    next? (exec .mbDequeue loaded) (fun t => decide (t.buf = [0x00#8] ∧
      added loaded t = [.resp .mbDequeue .ok (.byte 0xB2#8)])) = true := by decide +kernel

/-- 95 P1 step 1. -/
theorem test_init_default :
    next? (exec (.sysInit (some 4) (some 4800)) State.reset) (fun t => decide (t.life = .ready ∧ t.state = .idle ∧ t.mapped = true ∧
      line t = .driven .high ∧ added State.reset t = [.regWrite (.set (bankNo 0)) 0x10#32, .level .high, .regRead (.fsel (fselNo 0)),
        .regWrite (.fsel (fselNo 0)) 0x1000#32, .resp (.sysInit (some 4) (some 4800)) .ok .none])) = true := by decide +kernel

/-- 46 R196: a caller that gives none uses (4, 4800). -/
theorem test_init_no_operands :
    next? (exec (.sysInit none none) State.reset) (fun t => decide (t.life = .ready ∧ t.cfg.bitsPerSecond = 4800 ∧
      t.cfg.logicalPin.val = 4 ∧ line t = .driven .high)) = true := by decide +kernel

/-- 95 part 2: pin 53 at 1 bit/s. -/
theorem test_init_last_pin :
    next? (exec (.sysInit (some 53) (some 1)) (withFsel (fselNo 5) 0xFFFFFFFF#32 State.reset)) (fun t => decide (t.fsel[5] = 0xFFFFF3FF#32 ∧
      bitPeriod t = 1)) = true := by decide +kernel

theorem test_teardown :
    next? (exec .sysTeardown (sending 3 false [])) (fun t => decide (t.life = .down ∧ t.mapped = false ∧ t.timer = none ∧
      t.frame = none ∧ t.state = .idle ∧ t.out = (sending 3 false []).out)) = true := by decide +kernel

theorem test_open : next? (exec .devOpen ready) (fun t => decide (t.openCount = 1)) = true := by decide +kernel

/-- 95 S4 and part 2: `abc(3 letters)`. -/
theorem test_write_abc :
    next? (exec (.devWrite [0x61#8, 0x62#8, 0x63#8] 3) ready) (fun t => decide (t.buf = [0x61#8, 0x62#8, 0x63#8, 0x28#8,
      0x33#8, 0x20#8, 0x6C#8, 0x65#8, 0x74#8, 0x74#8, 0x65#8, 0x72#8, 0x73#8, 0x29#8] ∧ t.state = .armed ∧
      t.timer = some (1 / 4800))) = true := by decide +kernel

/-- 95 part 2: `0123456789(10 letters)` has 22 bytes, and 100 bytes of data give 113. -/
theorem test_message_lengths :
    (messageText (List.replicate 10 0x30#8) 10).length = 22 ∧ (messageText (List.replicate 100 0x30#8) 100).length = 113 ∧
    dec 243 = [0x32#8, 0x34#8, 0x33#8] := by decide +kernel

theorem test_read_short :
    next? (exec (.devRead 1 true) loaded) (fun t => decide (t.buf = [] ∧
      added loaded t = [.resp (.devRead 1 true) .ok (.bytes [0xB2#8] 1)])) = true := by decide +kernel

theorem test_read_fault :
    next? (exec (.devRead 8 false) loaded) (fun t => decide (t.buf = loaded.buf ∧
      added loaded t = [.resp (.devRead 8 false) .eFault .none])) = true := by decide +kernel

theorem test_close : next? (exec .devClose loaded) (fun t => decide ({ t with trace := [] } = loaded)) = true := by
  decide +kernel

/-! ## Fetching -/

/-- The step takes the table word that was placed and runs it (from reset SYS.init(0, 0) answers E_CONFIG). -/
theorem test_fetch_word :
    next? (step (State.reset.withFetchWord 8 0x60)) (fun t => decide (t.inbox = [] ∧
      added State.reset t = [.resp (.sysInit (some 0) (some 0)) .eConfig .none])) = true ∧
    refused? (step (State.reset.withFetchWord 8 0x40)) .notReady = true ∧
    refused? (step (State.reset.withFetchWord 8 0x13)) (.undecodable (.unassignedSelector 0x13#8)) = true := by
  decide +kernel

/-! ## Witnesses: the hypotheses of every obligation can be met -/

theorem ready_inv : Inv ready := by
  refine ⟨by decide, by decide, by decide, by decide +kernel, fun _ => ⟨?_, ?_, ?_, ?_, ?_, ⟨rfl, by decide⟩, ?_⟩⟩
  · show ready.buf.length ≤ Config.capacity
    decide
  · show ready.state = .idle ↔ ready.timer = none
    decide +kernel
  · show ready.state = .transmitting ↔ ready.frame ≠ none
    decide
  · intro f h; cases h
  · intro f h; cases h
  · intro d h; cases h

/-- A READY block whose callback is due now meets the invariant when its engine fields do. -/
theorem due_inv (s : State) (h0 : s = { ready with
      buf := s.buf, frame := s.frame, state := s.state, timer := some (1 / 4800), now := 1 / 4800, out := s.out })
    (h1 : s.buf.length ≤ 256) (h2 : s.state ≠ .idle) (h3 : Inv3 s) (h4 : Inv4 s) (h5 : Inv5 s) : Inv s := by
  rw [h0] at *
  refine ⟨ready_inv.1, ready_inv.2.1, ready_inv.2.2.1, fun h => absurd rfl h, fun _ => ⟨h1, ?_, h3, h4, h5, ⟨rfl, ?_⟩, ?_⟩⟩
  · constructor
    · intro h; exact absurd h h2
    · intro h; cases h
  · show pinField ready = Config.funcOutput
    decide
  · intro d h
    cases h
    exact ⟨le_refl _, by show (1 / 4800 : Rat) ≤ 1 / 4800 + 1 / ((4800 : Nat) : Rat); decide +kernel⟩

theorem loaded_inv : Inv loaded :=
  ⟨ready_inv.1, ready_inv.2.1, ready_inv.2.2.1, ready_inv.2.2.2.1, fun h =>
    ⟨show loaded.buf.length ≤ 256 by decide, (ready_inv.2.2.2.2 h).2⟩⟩

theorem armedDue_inv : Inv armedDue :=
  due_inv _ rfl (by decide) (by decide) (by show armedDue.state = .transmitting ↔ armedDue.frame ≠ none; decide)
    (fun _ h => by cases h) (fun _ h => by cases h)

theorem sending_inv (i : Int) (done : Bool) (buf : List Byte) (hb : buf.length ≤ 256) (h0 : 0 ≤ i) (h8 : i ≤ 8)
    (hd : done = true → i = 8) : Inv (sending i done buf) :=
  due_inv _ rfl hb (by simp [sending]) (by simp [Inv3, sending])
    (fun _ h => by cases h; exact ⟨by show -1 ≤ i; omega, h8, hd⟩) (fun _ _ h => by cases h; exact h0)

/-- A block with these pending events. -/
def withInbox (es : List Event) (s : State) : State := { s with inbox := es }

theorem witness_SelectorTableDecodes :
    (∀ b ∈ [0x00#8, 0x0F#8, 0x13#8, 0x54#8, 0x74#8, 0xFF#8], b ∉ selectorTable.map Prod.fst) := by decide

theorem witness_StepRunsTheDecodedOperation :
    (withInbox [.call .process (encode .engArm)] loaded).inbox = .call .process (encode .engArm) :: [] ∧
    decode (encode .engArm) = .ok .engArm ∧ .process ∈ Instr.engArm.contexts ∧ Instr.engArm ≠ .engTick ∧
    decode (encode .engTick) = .ok .engTick ∧ .callback ∈ Instr.engTick.contexts ∧
    armedDue.timer = some (1 / 4800) ∧ armedDue.now ≤ 1 / 4800 ∧
    .callback ∉ Instr.engArm.contexts ∧ decode ⟨0x13#8, []⟩ = .error (.unassignedSelector 0x13#8) :=
  ⟨rfl, rfl, by decide, by decide, rfl, by decide, rfl, le_refl _, by decide, rfl⟩

theorem witness_ContextTable :
    next? (step (withInbox [.call .process (encode .engArm)] loaded)) (fun t => decide (t.state = .armed)) = true := by
  decide +kernel

theorem witness_TimeNeverPassesADueTick :
    next? (step armedDue) (fun t => decide (t.now = 1 / 4800)) = true ∧ armedDue.now ≤ 1 / 4800 ∧
    (withInbox [.elapse 1] armedDue).inbox = .elapse 1 :: [] ∧ (1 / 4800 : Time) < 1 ∧
    next? (step (withInbox [.elapse 1] armedDue)) (fun t => decide (t.now = 1 / 4800 ∧ t.state = .transmitting)) = true := by
  decide +kernel

theorem witness_IdleBlockTakesNoStep :
    ready.inbox = [] ∧ ready.timer = none ∧ armedDue.inbox = [] ∧ armedDue.timer = some (1 / 4800) ∧
    armedDue.now ≤ 1 / 4800 := by decide +kernel

/-- Field 4 of FSEL[0] is the block's; the others may take any value. -/
theorem witness_OutsideWritesSpareTheBlock :
    ready.life = .ready ∧
    next? (step (withInbox [.outsideFsel (fselNo 0) 0xFFFF9FFF#32] ready)) (fun t => t.fsel[0] == 0xFFFF9FFF#32) = true ∧
    refused? (step (withInbox [.outsideFsel (fselNo 0) 0#32] ready)) .environmentDuty = true ∧
    refused? (step (withInbox [.outsideLatch ⟨4, by decide⟩ .low] ready)) .environmentDuty = true ∧
    next? (step (withInbox [.outsideLatch ⟨5, by decide⟩ .high] ready)) (fun t => t.out[5] == .high) = true ∧
    fselNo 5 ≠ fselIndex ready.cfg.logicalPin := by decide +kernel

theorem no_register_at (k : Nat) (h : k = 0x18 ∨ k = 0x24 ∨ k = 0x30) (r : Reg) : regAddr r ≠ Config.gpioBase + k := by
  cases r with
  | fsel i => have hi : i.val < 6 := i.isLt; simp only [regAddr, Config.offFsel]; omega
  | set b => have hb : b.val < 2 := b.isLt; simp only [regAddr, Config.offSet]; omega
  | clr b => have hb : b.val < 2 := b.isLt; simp only [regAddr, Config.offClr]; omega

theorem witness_RefusalsAreByName :
    State.reset.life ≠ .ready ∧ (∀ p b, Instr.engArm ≠ .sysInit p b) ∧ ready.life = .ready ∧ ready.mapped = true ∧
    (Instr.rbSetFunction 6 0 1).wf = false ∧ (Instr.encNextBit ⟨0#8, 9, false⟩).wf = false ∧
    (∀ f, Instr.encNextBit ⟨0#8, 9, false⟩ = .encNextBit f → f.done = false) ∧
    (Instr.devWrite [0x61#8] 0).wf = false ∧ (-1 : Time) < ready.now ∧ (⟨0x41#8, 8, true⟩ : TxFrame).done = true ∧
    ready.buf = [] ∧ (Config.gpioBase + 0x18) % 4 = 0 ∧ (∀ r, regAddr r ≠ Config.gpioBase + 0x18) ∧
    ¬(2 = 4 ∧ Config.gpioBase % 4 = 0) ∧ ¬(4 = 4 ∧ (Config.gpioBase + 2) % 4 = 0) ∧
    0x13#8 ∉ selectorTable.map Prod.fst := by
  refine ⟨by decide, fun _ _ => by simp, rfl, rfl, by decide, by decide, fun f h => by cases h; rfl, by decide,
    by decide +kernel, rfl, rfl, ?_, no_register_at _ (.inl rfl), by decide, ?_, by decide⟩
  · simp only [Config.gpioBase]; omega
  · simp only [Config.gpioBase]; omega

theorem witness_ErrorsChangeNothing :
    next? (exec (.mbEnqueue [0x61#8]) armedDue) (fun t => decide (t.trace = armedDue.trace ++
      [⟨armedDue.now, .resp (.mbEnqueue [0x61#8]) .eBusy .none⟩])) = true ∧ Status.eBusy ≠ .ok := by decide +kernel

theorem witness_FirstFailingCheckDecides :
    State.reset.life ≠ .ready ∧ (∀ p b, Instr.devOpen ≠ .sysInit p b) ∧ ready.life = .ready ∧ 2 ≠ [0x61#8].length ∧
    256 < (List.replicate 257 0#8).length ∧ (List.replicate 256 0#8).length ≤ 256 ∧ armedDue.state ≠ .idle ∧
    256 < (List.replicate 244 0#8).length + (dec (List.replicate 244 0#8).length).length + 10 ∧
    (List.replicate 243 0#8).length + (dec (List.replicate 243 0#8).length).length + 10 ≤ 256 ∧
    (0 : Int) ≤ 0 ∧ (0 : Int) < 1 ∧ ((-1 : Int) < 0 ∨ 54 ≤ (-1 : Int)) ∧ ((54 : Int) < 0 ∨ 54 ≤ (54 : Int)) ∧
    next? (exec (.devRead 8 false) loaded) (fun t => decide (t.trace = loaded.trace ++
      [⟨loaded.now, .resp (.devRead 8 false) .eFault .none⟩])) = true := by
  refine ⟨by decide, fun _ _ => by simp, ?_⟩
  decide +kernel

theorem witness_BlockAnswersEveryCaller :
    Inv armedDue ∧ armedDue.life = .ready ∧ Instr.engArm.format = .cmd ∧ Instr.devClose.format = .dev ∧
    (Instr.devWrite [0x61#8] 1).wf = true ∧ (∀ p b, Instr.devClose ≠ .sysInit p b) ∧
    armedDue.timer = some armedDue.now :=
  ⟨armedDue_inv, rfl, rfl, rfl, by decide, fun _ _ => by simp, rfl⟩

theorem witness_SetFunctionWritesOneField :
    ready.life = .ready ∧ ready.mapped = true ∧ ({ ready with mapped := false } : State).mapped = false ∧
    ¬(0 ≤ (6 : Int) ∧ (6 : Int) < 6) ∧ ¬(0 ≤ (28 : Int) ∧ (28 : Int) ≤ 27) ∧ ¬((13 : Int) % 3 = 0) ∧
    ¬((8 : Int) ≤ 7) := by decide

theorem witness_SetBitRaisesOnePin :
    ready.life = .ready ∧ ready.mapped = true ∧ ({ ready with mapped := false } : State).mapped = false ∧
    ¬(0 ≤ (2 : Int) ∧ (2 : Int) < 2 ∧ 0 ≤ (0 : Int) ∧ (0 : Int) < 32) ∧
    ¬(0 ≤ (1 : Int) ∧ (1 : Int) < 2 ∧ 0 ≤ (32 : Int) ∧ (32 : Int) < 32) := by decide

theorem witness_ClearBitLowersOnePin :
    ready.life = .ready ∧ ready.mapped = true ∧ ({ ready with mapped := false } : State).mapped = false ∧
    ¬(0 ≤ (-1 : Int) ∧ (-1 : Int) < 2 ∧ 0 ≤ (0 : Int) ∧ (0 : Int) < 32) ∧
    ¬(0 ≤ (0 : Int) ∧ (0 : Int) < 2 ∧ 0 ≤ (-1 : Int) ∧ (-1 : Int) < 32) := by decide

theorem witness_StrobeWordsMoveTheirPins :
    ready.mapped = true ∧
    next? (exec (.rbSetBit 1 31) ready) (fun t => decide (t.trace = ready.trace ++
      [⟨0, .regWrite (.set (bankNo 1)) (1#32 <<< 31)⟩, ⟨0, .resp (.rbSetBit 1 31) .ok .none⟩])) = true ∧
    next? (exec .engTick armedDue) (fun t => decide (⟨armedDue.now, .regWrite (.clr (bankNo 0)) (1#32 <<< 4)⟩ ∈ t.trace))
      = true := by decide +kernel

theorem witness_UnmappedAccessFaultsAndIsUnreachable :
    State.reset.mapped = false ∧ Inv ready ∧
    fault? (step { armedDue with mapped := false }) (.unmapped (.clr (bankNo 0)) (.rbClearBit 0 4)) = true ∧
    armedDue.life = .ready ∧ armedDue.timer = some armedDue.now ∧ armedDue.state = .armed ∧ armedDue.buf ≠ [] :=
  ⟨rfl, ready_inv, by decide +kernel, rfl, rfl, rfl, by decide⟩

theorem witness_ConfigureAsOutputWritesThePinsField :
    ready.life = .ready ∧ ready.mapped = true ∧ ({ ready with mapped := false } : State).mapped = false ∧
    ¬(0 ≤ (-1 : Int) ∧ (-1 : Int) < 54) ∧ ¬(0 ≤ (54 : Int) ∧ (54 : Int) < 54) ∧
    (fselNo 0).val = 9 / 10 ∧ (fselNo 1).val = 10 / 10 ∧ (fselNo 5).val = 53 / 10 := by decide

theorem witness_WriteLevelDrivesThePin :
    ready.life = .ready ∧ ready.mapped = true ∧ ({ ready with mapped := false } : State).mapped = false ∧
    ¬(0 ≤ (-1 : Int) ∧ (-1 : Int) < 54) ∧ ¬(0 ≤ (54 : Int) ∧ (54 : Int) < 54) ∧
    (bankNo 0).val = 31 / 32 ∧ (bankNo 1).val = 32 / 32 ∧ (bankNo 1).val = 53 / 32 := by decide

theorem witness_FreshFrameStandsAtTheStart :
    ready.life = .ready ∧ State.reset.life ≠ .ready ∧ ({ ready with life := .down } : State).life ≠ .ready := by decide

theorem witness_NextBitEmitsOneSlot : ready.life = .ready ∧ 0 ≤ 7 ∧ 7 ≤ 7 := by decide

theorem witness_TenSlotsMakeAFrame : 0 ≤ 9 ∧ 9 ≤ 9 ∧ 0 < 10 ∧ 9 < 10 := by decide

theorem witness_ArmSchedulesTheFirstCallback :
    State.reset.life ≠ .ready ∧ loaded.life = .ready ∧ loaded.state = .idle ∧ loaded.buf ≠ [] ∧ armedDue.state ≠ .idle ∧
    ready.buf = [] := by decide

theorem witness_TickStartsTheFirstFrame :
    armedDue.life = .ready ∧ armedDue.mapped = true ∧ armedDue.timer = some armedDue.now ∧ armedDue.state = .armed ∧
    armedDue.buf = 0xB2#8 :: [0x00#8] := by decide +kernel

theorem witness_TickWithNothingToSendIdles :
    let s : State := { armedDue with buf := [] }
    s.life = .ready ∧ s.timer = some s.now ∧ s.state = .armed ∧ s.buf = [] := by decide +kernel

/-- The first data bit, the last, and the stop bit; and the start position, which no run reaches. -/
theorem witness_TickSendsTheNextSlot :
    ∀ i ∈ [-1, 0, 7, 8], (sending i false []).life = .ready ∧ (sending i false []).mapped = true ∧
      (sending i false []).timer = some (sending i false []).now ∧ (sending i false []).state = .transmitting ∧
      (sending i false []).frame = some ⟨0xB2#8, i, false⟩ ∧ -1 ≤ i ∧ i ≤ 8 := by decide +kernel

theorem witness_TickStartsTheNextFrame :
    (sending 8 true [0x00#8]).life = .ready ∧ (sending 8 true [0x00#8]).mapped = true ∧
    (sending 8 true [0x00#8]).timer = some (sending 8 true [0x00#8]).now ∧
    (sending 8 true [0x00#8]).state = .transmitting ∧ (sending 8 true [0x00#8]).frame = some ⟨0xB2#8, 8, true⟩ ∧
    (sending 8 true [0x00#8]).buf = 0x00#8 :: [] := by decide +kernel

theorem witness_TickFinishesTheMessage :
    (sending 8 true []).life = .ready ∧ (sending 8 true []).timer = some (sending 8 true []).now ∧
    (sending 8 true []).state = .transmitting ∧ (sending 8 true []).frame = some ⟨0xB2#8, 8, true⟩ ∧
    (sending 8 true []).buf = [] ∧ Inv (sending 8 true []) ∧ IdleHigh (sending 8 true []) :=
  ⟨rfl, rfl, rfl, rfl, rfl, sending_inv _ _ _ (by decide) (by decide) (by decide) (fun _ => rfl), fun _ _ => by decide⟩

theorem witness_TickRunsExactlyWhenDue :
    Inv armedDue ∧ armedDue.life = .ready ∧ armedDue.timer = some armedDue.now ∧
    next? (exec .engTick armedDue) (fun _ => true) = true ∧ Inv ready ∧ ready.timer ≠ some ready.now ∧ ready.state = .idle :=
  ⟨armedDue_inv, rfl, rfl, by decide +kernel, ready_inv, by decide +kernel, rfl⟩

theorem witness_CancelStopsEverything :
    State.reset.life ≠ .ready ∧ (sending 3 false [0xFF#8]).life = .ready ∧
    next? (exec .engCancel (sending 3 false [0xFF#8])) (fun _ => true) = true := by decide +kernel

theorem witness_NoAccessUntilArmedAgain :
    Inv (withInbox [.call .process (encode .mbIsEmpty)] ready) ∧
    (∀ e rest, (withInbox [.call .process (encode .mbIsEmpty)] ready).inbox = e :: rest →
      ¬ e.isCall .engArm ∧ ¬ e.isCall .sysTeardown ∧ ∀ d n, ¬ e.isCall (.devWrite d n)) ∧
    next? (step (withInbox [.call .process (encode .mbIsEmpty)] ready)) (fun _ => true) = true := by
  have k : ∀ i, Event.isCall (.call .process (encode .mbIsEmpty)) i → i = .mbIsEmpty := by
    rintro i ⟨ctx, cmd, h, hd⟩
    cases h
    cases hd
    rfl
  refine ⟨⟨by decide, ready_inv.2⟩, ?_, by decide +kernel⟩
  intro e rest h
  cases h
  exact ⟨(fun h => by cases k _ h), (fun h => by cases k _ h), (fun d n h => by cases k _ h)⟩

theorem witness_ScheduleArmsTheTimer :
    ready.life = .ready ∧ ready.now ≤ 0 ∧ (-1 : Time) < ready.now ∧ ready.timer = none := by decide +kernel

theorem witness_OneTransitionPerTick :
    next? (exec .engTick armedDue) (fun _ => true) = true ∧ next? (exec .engTick (sending 8 true [])) (fun _ => true) = true := by
  decide +kernel

theorem witness_MessageIsSentSlotBySlot :
    Inv loaded ∧ loaded.life = .ready ∧ loaded.state = .idle ∧ loaded.inbox = [] ∧ loaded.buf ≠ [] ∧
    1 ≤ 10 * loaded.buf.length := ⟨loaded_inv, rfl, rfl, rfl, by decide, by decide⟩

theorem witness_ConsumeLetsTheFrameFinish :
    Inv (sending 3 false [0x00#8]) ∧ (sending 3 false [0x00#8]).life = .ready ∧ (sending 3 false [0x00#8]).inbox = [] ∧
    (sending 3 false [0x00#8]).timer = some (1 / 4800) ∧ (sending 3 false [0x00#8]).frame = some ⟨0xB2#8, (3 : Nat), false⟩ ∧
    (sending 8 false []).frame = some ⟨0xB2#8, (8 : Nat), false⟩ ∧ Inv (sending 8 true [0x00#8]) ∧
    (sending 8 true [0x00#8]).frame = some ⟨0xB2#8, 8, true⟩ ∧ Inv armedDue ∧ armedDue.state = .armed :=
  ⟨sending_inv _ _ _ (by decide) (by decide) (by decide) (fun h => by cases h), rfl, rfl, rfl, rfl, rfl,
    sending_inv _ _ _ (by decide) (by decide) (by decide) (fun _ => rfl), rfl, armedDue_inv, rfl⟩

theorem witness_EnqueueReplacesThePayload :
    State.reset.life ≠ .ready ∧ ready.life = .ready ∧ 256 < (List.replicate 257 0#8).length ∧
    (List.replicate 256 0#8).length ≤ 256 ∧ armedDue.state ≠ .idle ∧ ready.state = .idle := by decide +kernel

theorem witness_ConsumeTakesEverything :
    State.reset.life ≠ .ready ∧ loaded.life = .ready ∧ next? (exec .mbConsume loaded) (fun _ => true) = true := by
  decide +kernel

theorem witness_DequeueTakesTheHead :
    ready.life = .ready ∧ ready.buf.length = 0 ∧ loaded.life = .ready ∧ loaded.buf = 0xB2#8 :: [0x00#8] := by decide

theorem witness_InitBringsTheBlockUp :
    ready.life = .ready ∧ State.reset.life ≠ .ready ∧ (∃ b, some (0 : Int) = some b ∧ b ≤ 0) ∧
    (∃ p, some (54 : Int) = some p ∧ (p < 0 ∨ 54 ≤ p)) ∧ (∃ p, some (-1 : Int) = some p ∧ (p < 0 ∨ 54 ≤ p)) ∧ 0 < 1 ∧
    (some (53 : Int)).getD 4 = 53 ∧ (none : Option Int).getD 4 = 4 ∧ (some (1 : Int)).getD 4800 = 1 ∧
    (none : Option Int).getD 4800 = 4800 ∧ (fselNo 0).val = 4 / 10 ∧ (fselNo 5).val = 53 / 10 :=
  ⟨rfl, by decide, ⟨0, rfl, by decide⟩, ⟨54, rfl, by decide⟩, ⟨-1, rfl, by decide⟩, by decide⟩

theorem witness_InitAcceptsAnyPairAndDefaults :
    State.reset.life ≠ .ready ∧ ({ ready with life := .down } : State).life ≠ .ready ∧ 0 < 1 ∧ loaded.life = .ready ∧
    next? (exec .engArm loaded) (fun _ => true) = true := by decide +kernel

theorem witness_TeardownCancelsThenReleases :
    State.reset.life ≠ .ready ∧ armedDue.life = .ready ∧ next? (exec .sysTeardown armedDue) (fun _ => true) = true ∧
    (∀ p b, Instr.engArm ≠ .sysInit p b) := by
  refine ⟨by decide, rfl, by decide +kernel, fun _ _ => by simp⟩

theorem witness_PowerOnAdmitsOnlyInit : ∀ p b, Instr.devOpen ≠ .sysInit p b := fun _ _ => by simp

theorem witness_ConfigurationIsFixedWhileReady :
    armedDue.life = .ready ∧ next? (step armedDue) (fun _ => true) = true ∧ 0 < 9600 := by decide +kernel

theorem witness_WriteQueuesTheMessageAndArms :
    State.reset.life ≠ .ready ∧ ready.life = .ready ∧ 2 ≠ [0x61#8].length ∧ ready.state = .idle ∧ armedDue.state ≠ .idle ∧
    256 < (messageText (List.replicate 244 0#8) 244).length ∧ (messageText (List.replicate 243 0#8) 243).length ≤ 256 := by
  decide +kernel

theorem witness_ReadClearsOnlyAfterTheCopy :
    State.reset.life ≠ .ready ∧ loaded.life = .ready ∧ 0 < 1 ∧ loaded.buf ≠ [] ∧ ready.buf = [] := by decide

theorem witness_DecimalRendering :
    1 ≠ 0 ∧ 0 ≤ 9 ∧ 9 ≤ 9 ∧ 10 ≤ 10 ∧ 99 ≤ 99 ∧ 100 ≤ 100 ∧ 999 ≤ 999 ∧ 0x30 ≤ (0x30#8).toNat ∧ 0x30#8 ∈ dec 0 := by decide

theorem witness_WriteThenReadReturnsTheMessage :
    ready.life = .ready ∧ ready.state = .idle ∧ (List.replicate 243 0#8).length ≤ 243 ∧ 256 ≤ 256 := by decide +kernel

theorem witness_StepKeepsTheInvariant :
    Inv armedDue ∧ next? (step armedDue) (fun t => decide (t.state = .transmitting)) = true :=
  ⟨armedDue_inv, by decide +kernel⟩

theorem witness_LineIsHighWhenNothingIsSent :
    next? (exec (.sysInit (some 4) (some 4800)) State.reset) (fun t => decide (t.life = .ready)) = true ∧
    Inv (sending 8 false []) ∧ IdleHigh (sending 8 false []) ∧
    (∀ e rest, (sending 8 false []).inbox = e :: rest → ¬ e.isCall .engCancel) ∧
    next? (step (sending 8 false [])) (fun t => decide (frameDone t = true)) = true :=
  ⟨by decide +kernel, sending_inv _ _ _ (by decide) (by decide) (by decide) (fun h => by cases h), fun _ _ => by decide,
    (fun _ _ h => by cases h), by decide +kernel⟩

/-- The block of 95 P4 after its cancel: IDLE with the line LOW. -/
def cancelledLow : State := { ready with out := ready.out.set 4 .low }

theorem witness_IdleByTickCanBeLowAfterACancel :
    Inv cancelledLow ∧ cancelledLow.life = .ready ∧ cancelledLow.state = .idle ∧ line cancelledLow = .driven .low ∧
    [0x61#8] ≠ [] ∧ [0x61#8].length ≤ 256 :=
  ⟨ready_inv, rfl, rfl, by decide, by decide, by decide⟩

theorem witness_ReadyLineIsTheLatch :
    pinField ready = Config.funcOutput ∧ pinField State.reset ≠ Config.funcOutput ∧ Inv armedDue ∧
    next? (step armedDue) (fun t => decide (t.life = .ready)) = true :=
  ⟨by decide, by decide, armedDue_inv, by decide +kernel⟩

theorem witness_OnlyTheTickTouchesThePin :
    armedDue.life = .ready ∧ Instr.engTick.assembled = true ∧ Instr.engArm.assembled = true ∧ Instr.engArm ≠ .engTick ∧
    next? (exec .engTick armedDue) (fun _ => true) = true ∧ next? (exec .engArm armedDue) (fun _ => true) = true := by
  decide +kernel

theorem witness_TraceIsNeverRead :
    SameButTrace armedDue { armedDue with trace := [⟨0, .level .high⟩] } ∧
    next? (step armedDue) (fun t => decide (t.trace ≠ [])) = true ∧
    fault? (step { armedDue with mapped := false }) (.unmapped (.clr (bankNo 0)) (.rbClearBit 0 4)) = true ∧
    refused? (step (withInbox [.call .process (encode .engTick)] armedDue)) .wrongContext = true :=
  ⟨rfl, by decide +kernel, by decide +kernel, by decide +kernel⟩

theorem witness_CancelAndTickInEitherOrder :
    Inv armedDue ∧ armedDue.life = .ready ∧ armedDue.timer = some armedDue.now := ⟨armedDue_inv, rfl, rfl⟩

theorem witness_DescheduleDisarmsTheTimer : armedDue.life = .ready ∧ ready.life = .ready ∧ ready.timer = none := by
  decide +kernel

theorem witness_IsEmptyTellsTheLength : State.reset.life ≠ .ready ∧ ready.life = .ready := by decide

theorem witness_OpenCounts : ready.life = .ready := rfl

theorem witness_CloseDoesNothing : armedDue.life = .ready := rfl

end Sys2Proof.Tests
end

section
/-!
SUPPORT for the proofs about the whole machine: the step, event by event, what a fetched command is, what is refused
outside READY, and what SYS.init leaves on the pin.
-/

namespace Sys2Proof.Machine

theorem step_of_inbox_nil {s : State} (h : s.inbox = []) : step s = idleStep s := by simp [step, h]

theorem step_of_elapse {s : State} {u : Time} {rest : List Event} (h : s.inbox = .elapse u :: rest) :
    step s = elapse u rest s := by simp [step, h]

theorem step_of_outsideFsel {s : State} {i : Fin Config.nfsel} {v : Word} {rest : List Event}
    (h : s.inbox = .outsideFsel i v :: rest) : step s = outsideFsel i v rest s := by simp [step, h]

theorem step_of_outsideLatch {s : State} {p : Fin Config.npins} {l : Level} {rest : List Event}
    (h : s.inbox = .outsideLatch p l :: rest) : step s = outsideLatch p l rest s := by simp [step, h]

theorem step_of_call_fetched {s : State} {ctx : Context} {cmd : Command} {rest : List Event} {i : Instr}
    (h : s.inbox = .call ctx cmd :: rest) (hf : fetch ctx cmd = .ok i) : step s = exec i (issued i rest s) := by
  simp [step, h, hf]

theorem step_of_call_rejected {s : State} {ctx : Context} {cmd : Command} {rest : List Event} {r : Refusal}
    (h : s.inbox = .call ctx cmd :: rest) (hf : fetch ctx cmd = .error r) : step s = .refused r := by
  simp [step, h, hf]

theorem fetch_of_decode {ctx : Context} {cmd : Command} {i : Instr} (hc : decode cmd = .ok i)
    (hx : ctx ∈ i.contexts) : fetch ctx cmd = .ok i := by
  simp [fetch, hc, hx]

theorem fireTick_of_due {s : State} {due : Time} (ht : s.timer = some due) (hn : s.now ≤ due) :
    fireTick s = exec .engTick { s with now := due } := by
  rw [fireTick, toDue_due ht hn]

/-- Time that would run past a pending due time fires the tick instead (10 R36). -/
theorem elapse_past_due {s : State} {due u : Time} {rest : List Event} (ht : s.timer = some due) (hn : s.now ≤ due)
    (hu : due < u) : elapse u rest s = fireTick s := by
  have hback : ¬ u < s.now := not_lt.2 (hn.trans hu.le)
  simp [elapse, ht, hback, hu]

/-- 60 R219: outside READY only SYS.init is not refused. -/
theorem exec_notReady {i : Instr} {s : State} (hl : s.life ≠ .ready) (hi : ∀ p b, i ≠ .sysInit p b) :
    exec i s = .refused .notReady := by
  cases i with
  | sysInit p b => exact absurd rfl (hi p b)
  | _ => exact if_neg hl

/-- A write to a function-select register changes the block's own field only if it is the register of its pin. -/
theorem pinField_set_other {s : State} {i : Fin Config.nfsel} (h : i ≠ fselIndex s.cfg.logicalPin) (v : Word) :
    pinField { s with fsel := s.fsel.set i v } = pinField s := by
  have hne : i.val ≠ (fselIndex s.cfg.logicalPin).val := fun e => h (Fin.ext e)
  simp [pinField, Vector.getElem_set_ne, hne]

/-- Every field of a function-select word lies inside it (30 R93). -/
theorem fselOffset_le (p : Fin Config.npins) : fselOffset p + 3 ≤ 32 := by
  unfold fselOffset
  omega

theorem pinField_broughtUp (p : Fin Config.npins) (rate : Nat) (s : State) :
    pinField (broughtUp p rate s) = Config.funcOutput := by
  simp [pinField, broughtUp, fieldAt_insertField _ _ _ (fselOffset_le p)]

@[simp] theorem broughtUp_latch (p : Fin Config.npins) (rate : Nat) (s : State) :
    (broughtUp p rate s).out[(broughtUp p rate s).cfg.logicalPin] = .high := by
  simp [broughtUp]

theorem line_of_output {s : State} (h : pinField s = Config.funcOutput) :
    line s = .driven s.out[s.cfg.logicalPin] := by simp [line, h]

theorem line_of_not_output {s : State} (h : pinField s ≠ Config.funcOutput) : line s = .undriven := by
  simp [line, h]

/-- After SYS.init the line is HIGH (46 R190). -/
theorem line_broughtUp (p : Fin Config.npins) (rate : Nat) (s : State) :
    line (broughtUp p rate s) = .driven .high := by
  rw [line_of_output (pinField_broughtUp p rate s), broughtUp_latch]

end Sys2Proof.Machine
end

section
/-!
SUPPORT. How the invariant of the assembled block passes through the small updates of the state, then through a tick,
an operation and a step.
-/

namespace Sys2Proof
open Sys2Proof.Machine

theorem bitPeriod_nonneg (s : State) : 0 ≤ bitPeriod s := by
  unfold bitPeriod
  positivity

/-! While READY: INV1 to INV7. -/

theorem ReadyInv.withBuf {s : State} (h : ReadyInv s) {bs : List Byte} (hb : bs.length ≤ Config.capacity) :
    ReadyInv { s with buf := bs } := ⟨hb, h.2⟩

/-- Time may pass up to the due time of a pending callback. -/
theorem ReadyInv.later {s : State} (h : ReadyInv s) {u : Time} (hu : s.now ≤ u)
    (hd : ∀ due, s.timer = some due → u ≤ due) : ReadyInv { s with now := u } := by
  obtain ⟨h1, h2, h3, h4, h5, h6, h7⟩ := h
  refine ⟨h1, h2, h3, h4, h5, h6, fun due ht => ⟨hd due ht, ?_⟩⟩
  calc due ≤ s.now + bitPeriod s := (h7 due ht).2
    _ ≤ u + bitPeriod s := by gcongr

theorem ReadyInv.frame_eq_none {s : State} (h : ReadyInv s) (hs : s.state ≠ .transmitting) : s.frame = none := by
  obtain ⟨-, -, h3, -⟩ := h
  exact not_not.1 fun hf => hs (h3.2 hf)

/-- The engine at rest: no callback, no frame (44 R154, R157, R159). -/
theorem ReadyInv.atRest {s : State} (h : ReadyInv s) :
    ReadyInv { s with timer := none, frame := none, state := .idle } := by
  obtain ⟨h1, -, -, -, -, h6, -⟩ := h
  exact ⟨h1, by simp [Inv2], by simp [Inv3], by simp [Inv4], by simp [Inv5], h6, by simp [Inv7]⟩

theorem ReadyInv.arm {s : State} (h : ReadyInv s) : ReadyInv (ENG.arm s) := by
  unfold ENG.arm
  split
  case isFalse => exact h
  case isTrue hs =>
    have hf : s.frame = none := h.frame_eq_none (by simp [hs.1])
    obtain ⟨h1, -, -, -, -, h6, -⟩ := h
    refine ⟨h1, by simp [Inv2], by simp [Inv3, hf], by simp [Inv4, hf], by simp [Inv5], h6, ?_⟩
    intro due hd
    cases hd
    exact ⟨le_add_of_nonneg_right (bitPeriod_nonneg s), le_refl _⟩

/-- A slot has been sent and the next callback is one bit period away (44 R153, R155, R156). -/
theorem ReadyInv.slotSent {s : State} (h : ReadyInv s) {buf : List Byte} {f : TxFrame} (l : Level)
    (hb : buf.length ≤ Config.capacity) (hf : 0 ≤ f.bitIndex ∧ f.bitIndex ≤ 8 ∧ (f.done = true → f.bitIndex = 8)) :
    ReadyInv (slotSent buf f l s) := by
  obtain ⟨-, -, -, -, -, h6, -⟩ := h
  obtain ⟨hlo, hhi, hd⟩ := hf
  refine ⟨hb, by simp [Inv2, Machine.slotSent], by simp [Inv3, Machine.slotSent], ?_, ?_, h6, ?_⟩
  · intro g hg
    cases hg
    exact ⟨by omega, hhi, hd⟩
  · intro g _ hg
    cases hg
    exact hlo
  · intro due ht
    cases ht
    exact ⟨le_add_of_nonneg_right (bitPeriod_nonneg s), le_refl _⟩

/-- The frame of a block that is transmitting stands at a data bit or the stop bit (10 R44 INV4, INV5). -/
theorem ReadyInv.bitIndex_bounds {s : State} (h : ReadyInv s) {f : TxFrame} (hs : s.state = .transmitting)
    (hf : s.frame = some f) : 0 ≤ f.bitIndex ∧ f.bitIndex ≤ 8 := by
  obtain ⟨-, -, -, h4, h5, -, -⟩ := h
  exact ⟨h5 f hs hf, (h4 f hf).2.1⟩

/-- Advancing an unfinished frame past its start bit keeps it legal (43 R141). -/
theorem nextBit_bounds {f f' : TxFrame} {l : Level} (hd : f.done = false) (hf : 0 ≤ f.bitIndex ∧ f.bitIndex ≤ 8)
    (hn : ENC.nextBit f = .ok (l, f')) :
    0 ≤ f'.bitIndex ∧ f'.bitIndex ≤ 8 ∧ (f'.done = true → f'.bitIndex = 8) := by
  rw [nextBit_legal hd (by omega) hf.2] at hn
  by_cases h8 : f.bitIndex = 8
  · simp only [h8, if_true] at hn
    cases hn
    exact ⟨by simp, by simp, fun _ => rfl⟩
  · simp only [h8, if_false] at hn
    cases hn
    refine ⟨?_, ?_, ?_⟩
    · show 0 ≤ f.bitIndex + 1
      omega
    · show f.bitIndex + 1 ≤ 8
      omega
    · simp [hd]

theorem ReadyInv.tick {s t : State} (h : ReadyInv s) (he : TickEffect s t) : ReadyInv t := by
  have hcap : s.buf.length ≤ Config.capacity := h.1
  have htail : ∀ {b rest}, s.buf = b :: rest → rest.length ≤ Config.capacity := by
    intro b rest hb
    rw [hb, List.length_cons] at hcap
    omega
  cases he with
  | caseA b rest hm hs hb ht => exact ht ▸ h.slotSent .low (htail hb) (by simp)
  | caseB hs hb ht =>
    have hf : s.frame = none := h.frame_eq_none (by simp [hs])
    simpa only [ht, hf] using h.atRest
  | caseC f f' l hm hs hf hd hn ht =>
    exact ht ▸ h.slotSent l hcap (nextBit_bounds hd (h.bitIndex_bounds hs hf) hn)
  | caseD f b rest hm hs hf hd hb ht => exact ht ▸ h.slotSent .low (htail hb) (by simp)
  | caseE f hs hf hd hb ht => exact ht ▸ h.atRest

/-! The whole invariant. -/

theorem Inv.readyInv {s : State} (h : Inv s) (hl : s.life = .ready) : ReadyInv s := by
  obtain ⟨-, -, -, -, hr⟩ := h
  exact hr hl

theorem Inv.record {s : State} (h : Inv s) (ev : TraceEvent) : Inv (record ev s) := h

/-- What a READY block has to show for a state that keeps the fields INV1 to INV7 do not speak of. -/
theorem Inv.of_readyInv {s t : State} (h : Inv s) (hl : s.life = .ready) (hin : t.inbox = s.inbox)
    (hcfg : t.cfg = s.cfg) (hmap : t.mapped = s.mapped) (hlife : t.life = s.life) (hr : ReadyInv t) : Inv t := by
  obtain ⟨ha, hb, hm, -, -⟩ := h
  exact ⟨by rwa [hin], by rwa [hcfg], by rwa [hmap, hlife], fun hn => absurd (hlife.trans hl) hn, fun _ => hr⟩

theorem Inv.dropEvent {s : State} {e : Event} {rest : List Event} (h : Inv s) (hi : s.inbox = e :: rest) :
    Inv { s with inbox := rest } := by
  obtain ⟨ha, h⟩ := h
  exact ⟨fun x hx => ha x (hi ▸ List.mem_cons_of_mem e hx), h⟩

/-- The operation the environment issues is not a SUB operation. -/
theorem Inv.call_assembled {s : State} {ctx : Context} {cmd : Command} {rest : List Event} {i : Instr} (h : Inv s)
    (hi : s.inbox = .call ctx cmd :: rest) (hf : fetch ctx cmd = .ok i) : i.assembled = true := by
  obtain ⟨ha, -⟩ := h
  have := ha (.call ctx cmd) (hi ▸ List.mem_cons_self)
  simpa [Event.assembled, hf] using this

theorem Inv.later {s : State} (h : Inv s) {u : Time} (hu : s.now ≤ u) (hd : ∀ due, s.timer = some due → u ≤ due) :
    Inv { s with now := u } := by
  obtain ⟨ha, hb, hm, ht, hr⟩ := h
  exact ⟨ha, hb, hm, ht, fun hl => (hr hl).later hu hd⟩

/-- Time may always pass to the due time itself. -/
theorem Inv.atDue {s : State} (h : Inv s) {due : Time} (hd : s.timer = some due) (hn : s.now ≤ due) :
    Inv { s with now := due } :=
  h.later hn fun d e => by rw [hd] at e; cases e; exact le_refl _

theorem Inv.tick {s t : State} (h : Inv s) (hl : s.life = .ready) (he : TickEffect s t) : Inv t := by
  obtain ⟨-, hin, hcfg, hmap, hlife, -, -⟩ := tickEffect_frame he
  exact h.of_readyInv hl hin hcfg hmap hlife ((h.readyInv hl).tick he)

theorem Inv.withBuf {s : State} (h : Inv s) (hl : s.life = .ready) {bs : List Byte}
    (hb : bs.length ≤ Config.capacity) : Inv { s with buf := bs } :=
  h.of_readyInv hl rfl rfl rfl rfl ((h.readyInv hl).withBuf hb)

theorem Inv.arm {s : State} (h : Inv s) (hl : s.life = .ready) : Inv (ENG.arm s) := by
  obtain ⟨-, hin, hcfg, hmap, hlife, -⟩ := arm_frame s
  exact h.of_readyInv hl hin hcfg hmap hlife (h.readyInv hl).arm

theorem Inv.cancel {s : State} (h : Inv s) (hl : s.life = .ready) : Inv (ENG.cancel s) :=
  h.of_readyInv hl rfl rfl rfl rfl (h.readyInv hl).atRest

theorem Inv.teardown {s : State} (h : Inv s) : Inv (SYS.teardown s) := by
  obtain ⟨ha, hb, -, -, -⟩ := h
  exact ⟨ha, hb, by simp [SYS.teardown], fun _ => rfl, by simp [SYS.teardown]⟩

/-- SYS.init establishes what INV1 to INV7 ask, whatever the block held before (46 R190). -/
theorem readyInv_broughtUp (p : Fin Config.npins) (rate : Nat) (s : State) : ReadyInv (broughtUp p rate s) :=
  ⟨by simp [Inv1, broughtUp], by simp [Inv2, broughtUp], by simp [Inv3, broughtUp], by simp [Inv4, broughtUp],
    by simp [Inv5, broughtUp], ⟨rfl, pinField_broughtUp p rate s⟩, by simp [Inv7, broughtUp]⟩

theorem Inv.broughtUp {s : State} (h : Inv s) (p : Fin Config.npins) {rate : Nat} (hr : 0 < rate) :
    Inv (broughtUp p rate s) := by
  obtain ⟨ha, -⟩ := h
  exact ⟨ha, hr, by simp [Machine.broughtUp], fun hn => absurd rfl hn, fun _ => readyInv_broughtUp p rate s⟩

/-- Every operation of the assembled block keeps the invariant. -/
theorem Inv.effect {i : Instr} {s t : State} (h : Inv s) (hi : i.assembled = true) (he : Effect i s t) : Inv t := by
  cases i with
  | engArm => obtain ⟨hl, rfl⟩ := he; exact (h.arm hl).record _
  | engCancel => obtain ⟨hl, rfl⟩ := he; exact (h.cancel hl).record _
  | engTick => obtain ⟨hl, -, he⟩ := he; exact h.tick hl he
  | mbEnqueue bs =>
    obtain ⟨hl, ⟨-, rfl⟩ | ⟨-, -, rfl⟩ | ⟨hb, -, rfl⟩⟩ := he
    · exact h.record _
    · exact h.record _
    · exact (h.withBuf hl hb).record _
  | mbConsume => obtain ⟨hl, rfl⟩ := he; exact (h.withBuf hl (Nat.zero_le _)).record _
  | mbIsEmpty => obtain ⟨-, rfl⟩ := he; exact h.record _
  | sysInit p b =>
    obtain ⟨-, ⟨-, rfl⟩ | ⟨p, rate, hr, -, -, rfl⟩⟩ := he
    · exact h.record _
    · exact (h.broughtUp p hr).record _
  | sysTeardown => obtain ⟨-, rfl⟩ := he; exact h.teardown.record _
  | devOpen => obtain ⟨-, rfl⟩ := he; exact h
  | devWrite d n =>
    obtain ⟨hl, -, ⟨-, rfl⟩ | ⟨-, -, rfl⟩ | ⟨hb, -, rfl⟩⟩ := he
    · exact h.record _
    · exact h.record _
    · exact ((h.withBuf hl hb).arm hl).record _
  | devRead cap ok =>
    obtain ⟨hl, rfl | rfl⟩ := he
    · exact h.record _
    · exact (h.withBuf hl (Nat.zero_le _)).record _
  | devClose => obtain ⟨-, rfl⟩ := he; exact h.record _
  | _ => simp [Instr.assembled, Instr.format] at hi

/-- A write from outside that spares the block's own function field while READY (60 R238). -/
theorem Inv.outsideFsel {s : State} (h : Inv s) (i : Fin Config.nfsel) (v : Word)
    (hf : s.life = .ready → pinField { s with fsel := s.fsel.set i v } = pinField s) :
    Inv { s with fsel := s.fsel.set i v } := by
  obtain ⟨ha, hb, hm, ht, hr⟩ := h
  refine ⟨ha, hb, hm, ht, fun hl => ?_⟩
  obtain ⟨h1, h2, h3, h4, h5, ⟨h6, h6'⟩, h7⟩ := hr hl
  exact ⟨h1, h2, h3, h4, h5, ⟨h6, (hf hl).trans h6'⟩, h7⟩

theorem Inv.step {s t : State} (h : Inv s) (hst : step s = .next t) : Inv t := by
  cases step_effect hst with
  | idle hi ht e => exact e ▸ h
  | tick due hd hn hl he => exact (h.atDue hd hn).tick hl he
  | issuedTick ctx cmd rest due hi hc hd hn hl he => exact ((h.dropEvent hi).atDue hd hn).tick hl he
  | elapsed u rest hi hu hd e => exact e ▸ (h.dropEvent hi).later hu hd
  | outsideFsel i v rest hi hf e => subst e; exact (h.dropEvent hi).outsideFsel i v hf
  | outsideLatch p l rest hi hp e => exact e ▸ h.dropEvent hi
  | call ctx cmd rest i hi hc hx ht he =>
    exact (h.dropEvent hi).effect (h.call_assembled hi (fetch_of_decode hc hx)) he

end Sys2Proof
end

section
/-! The invariant of the assembled block: at power-on, and through every step. -/

namespace Sys2Proof.Proofs
open Sys2Proof Sys2Proof.Machine

/-- Settles O53: each small update of the state keeps the invariant, and a step is one of them, a tick or an operation. -/
theorem stepKeepsTheInvariant : Obligations.StepKeepsTheInvariant := fun _ _ h hst => h.step hst

/-- Settles O52: power-on is UNINIT, unmapped, with no callback and an empty inbox. -/
theorem invariantHoldsAtReset : Obligations.InvariantHoldsAtReset :=
  ⟨by simp [State.reset], by simp [State.reset], by simp [State.reset], fun _ => rfl, by simp [State.reset]⟩

end Sys2Proof.Proofs
end

section
/-! Time, what comes from outside the block, power-on, and the line of a READY block. -/

namespace Sys2Proof.Proofs
open Sys2Proof Sys2Proof.Machine

/-- A step moves the clock forward only, and up to a pending due time at most (10 R36). -/
theorem stepEffect_now {s t : State} (h : StepEffect s t) :
    s.now ≤ t.now ∧ ∀ due, s.timer = some due → s.now ≤ due → t.now ≤ due := by
  have at_due : ∀ due, s.timer = some due → s.now ≤ due → t.now = due →
      s.now ≤ t.now ∧ ∀ d, s.timer = some d → s.now ≤ d → t.now ≤ d := by
    rintro due hd hn rfl
    exact ⟨hn, fun d e _ => (Option.some.inj (hd.symm.trans e)).le⟩
  have unmoved : t.now = s.now → s.now ≤ t.now ∧ ∀ due, s.timer = some due → s.now ≤ due → t.now ≤ due :=
    fun e => ⟨e.ge, fun _ _ hn => e.le.trans hn⟩
  cases h with
  | idle hi ht e => exact unmoved (e ▸ rfl)
  | tick due hd hn hl he => exact at_due due hd hn (tickEffect_frame he).1
  | issuedTick ctx cmd rest due hi hc hd hn hl he => exact at_due due hd hn (tickEffect_frame he).1
  | elapsed u rest hi hu hd e => subst e; exact ⟨hu, fun due e _ => hd due e⟩
  | outsideFsel i v rest hi hf e => exact unmoved (e ▸ rfl)
  | outsideLatch p l rest hi hp e => exact unmoved (e ▸ rfl)
  | call ctx cmd rest i hi hc hx ht he =>
    have hnow := effect_now he
    exact unmoved hnow

/-- Settles O6: every step that answers moves the clock as its effect says, and `elapse` fires a tick it would pass. -/
theorem timeNeverPassesADueTick : Obligations.TimeNeverPassesADueTick := by
  refine ⟨fun s t h => stepEffect_now (step_effect h), ?_⟩
  intro s due u rest ht hn hi hu
  rw [step_of_elapse hi, elapse_past_due ht hn hu, fireTick_of_due ht hn]

/-- Settles O8: the two outside writes check exactly the block's own field and pin. -/
theorem outsideWritesSpareTheBlock : Obligations.OutsideWritesSpareTheBlock := by
  intro s rest hl
  have fsel_step : ∀ i v, s.inbox = .outsideFsel i v :: rest →
      step s = if pinField { s with fsel := s.fsel.set i v } = pinField s
        then .next { s with fsel := s.fsel.set i v, inbox := rest } else .refused .environmentDuty := by
    intro i v hi
    rw [step_of_outsideFsel hi]
    by_cases hf : pinField { s with fsel := s.fsel.set i v } = pinField s
    · rw [if_pos hf]
      exact if_neg fun hbad => hbad.2 hf
    · rw [if_neg hf]
      exact if_pos ⟨hl, hf⟩
  refine ⟨fsel_step, ?_, ?_⟩
  · intro p l hi
    rw [step_of_outsideLatch hi]
    simp only [outsideLatch, hl, true_and]
  · intro i v hi hne
    rw [fsel_step i v hi, if_pos (pinField_set_other hne v)]

/-- Settles O44: nothing is pending at power-on, and 60 R219 admits SYS.init alone. -/
theorem powerOnAdmitsOnlyInit : Obligations.PowerOnAdmitsOnlyInit := by
  have uninit : State.reset.life ≠ .ready := by decide
  refine ⟨rfl, rfl, rfl, rfl, fun i hi => exec_notReady uninit hi, rfl, ?_⟩
  have brings_up : ∀ pin baud, pinOrDefault pin = 4 → baudOrDefault baud = 4800 →
      ∃ t, exec (.sysInit pin baud) State.reset = .next t ∧ t.life = .ready ∧ t.state = .idle ∧
        line t = .driven .high ∧ bitPeriod t = 1 / 4800 := by
    intro pin baud hp hb
    exact ⟨_, sysInit_brings_up (p := Config.defaultPin) (rate := Config.defaultBaud) uninit hp hb (by decide), rfl, rfl,
      line_broughtUp _ _ _, by simp [bitPeriod, broughtUp]⟩
  rintro i (rfl | rfl)
  · exact brings_up none none rfl rfl
  · exact brings_up (some 4) (some 4800) rfl rfl

/-- Settles O56: INV6 makes the field of a READY block's pin the output code, and every step keeps it. -/
theorem readyLineIsTheLatch : Obligations.ReadyLineIsTheLatch := by
  refine ⟨fun s => ⟨line_of_output, line_of_not_output⟩, ?_⟩
  intro s t h hst hl
  obtain ⟨-, -, -, -, -, ⟨-, hfield⟩, -⟩ := (h.step hst).readyInv hl
  exact line_of_output hfield

end Sys2Proof.Proofs
end

section
/-!
SUPPORT. The latch of the block's pin is HIGH while no slot is being sent: how `IdleHigh` passes through a tick, an
operation and a step.
-/

namespace Sys2Proof
open Sys2Proof.Machine

/-- The slot that finishes a frame is the stop bit, which is HIGH (43 R141, 30 R97). -/
theorem nextBit_done_high {f f' : TxFrame} {l : Level} (hd : f.done = false) (hf : 0 ≤ f.bitIndex ∧ f.bitIndex ≤ 8)
    (hn : ENC.nextBit f = .ok (l, f')) (hd' : f'.done = true) : l = .high := by
  rw [nextBit_legal hd (by omega) hf.2] at hn
  by_cases h8 : f.bitIndex = 8
  · rw [h8] at hn
    cases hn
    rfl
  · rw [if_neg h8] at hn
    cases hn
    exact absurd (hd.symm.trans hd') (by decide)

/-- A state in which the block is not READY has nothing to show. -/
theorem IdleHigh.of_notReady {s : State} (hl : s.life ≠ .ready) : IdleHigh s := fun h => absurd h hl

theorem IdleHigh.of_latch {s : State} (h : s.out[s.cfg.logicalPin] = .high) : IdleHigh s := fun _ _ => h

theorem IdleHigh.record {s : State} (h : IdleHigh s) (ev : TraceEvent) : IdleHigh (record ev s) := h

theorem IdleHigh.arm {s : State} (h : IdleHigh s) : IdleHigh (ENG.arm s) := by
  unfold ENG.arm
  split
  case isTrue hs => exact fun hl _ => h hl (.inl (by simp [hs.1]))
  case isFalse => exact h

theorem IdleHigh.tick {s t : State} (h : IdleHigh s) (hr : ReadyInv s) (hl : s.life = .ready) (he : TickEffect s t) :
    IdleHigh t := by
  cases he with
  | caseA b rest hm hs hb ht => subst ht; intro _ hx; simp [slotSent, frameDone] at hx
  | caseB hs hb ht => subst ht; exact .of_latch (h hl (.inl (by simp [hs])))
  | caseC f f' l hm hs hf hd hn ht =>
    subst ht
    intro _ hx
    have hd' : f'.done = true := by simpa [slotSent, frameDone] using hx
    have hlevel := nextBit_done_high hd (hr.bitIndex_bounds hs hf) hn hd'
    simp [slotSent, hlevel]
  | caseD f b rest hm hs hf hd hb ht => subst ht; intro _ hx; simp [slotSent, frameDone] at hx
  | caseE f hs hf hd hb ht => subst ht; exact .of_latch (h hl (.inr (by simp [frameDone, hf, hd])))

theorem idleHigh_broughtUp (p : Fin Config.npins) (rate : Nat) (s : State) : IdleHigh (broughtUp p rate s) :=
  .of_latch (broughtUp_latch p rate s)

/-- SYS.init leaves the latch HIGH if it succeeds, and a block that is not READY if it does not (46 R190). -/
theorem idleHigh_sysInit {pin baud : Option Int} {s t : State} (he : Effect (.sysInit pin baud) s t) : IdleHigh t := by
  obtain ⟨hl, ⟨-, rfl⟩ | ⟨p, rate, -, -, -, rfl⟩⟩ := he
  · exact .of_notReady hl
  · exact (idleHigh_broughtUp p rate s).record _

/-- Every operation of the assembled block but a cancel keeps the latch HIGH; ENG.tick is `IdleHigh.tick`. -/
theorem IdleHigh.effect {i : Instr} {s t : State} (h : IdleHigh s) (hi : i.assembled = true) (ht : i ≠ .engTick)
    (hc : i ≠ .engCancel) (he : Effect i s t) : IdleHigh t := by
  cases i with
  | engTick => exact absurd rfl ht
  | engCancel => exact absurd rfl hc
  | engArm => obtain ⟨-, rfl⟩ := he; exact h.arm.record _
  | mbEnqueue bs => obtain ⟨-, ⟨-, rfl⟩ | ⟨-, -, rfl⟩ | ⟨-, -, rfl⟩⟩ := he <;> exact h
  | mbConsume => obtain ⟨-, rfl⟩ := he; exact h
  | mbIsEmpty => obtain ⟨-, rfl⟩ := he; exact h
  | sysInit p b => exact idleHigh_sysInit he
  | sysTeardown => obtain ⟨-, rfl⟩ := he; exact .of_notReady (by simp [SYS.teardown])
  | devOpen => obtain ⟨-, rfl⟩ := he; exact h
  | devWrite d n =>
    obtain ⟨-, -, ⟨-, rfl⟩ | ⟨-, -, rfl⟩ | ⟨-, -, rfl⟩⟩ := he
    · exact h
    · exact h
    · exact (IdleHigh.arm (s := { s with buf := messageText d n }) h).record _
  | devRead cap ok => obtain ⟨-, rfl | rfl⟩ := he <;> exact h
  | devClose => obtain ⟨-, rfl⟩ := he; exact h
  | _ => simp [Instr.assembled, Instr.format] at hi

/-- A latch other than the block's own may take any value (10 R27). -/
theorem IdleHigh.outsideLatch {s : State} (h : IdleHigh s) (p : Fin Config.npins) (l : Level)
    (hp : s.life = .ready → p ≠ s.cfg.logicalPin) : IdleHigh { s with out := s.out.set p l } := by
  intro hl hs
  have hne : p.val ≠ s.cfg.logicalPin.val := fun e => hp hl (Fin.ext e)
  simpa [Vector.getElem_set_ne, hne] using h hl hs

theorem IdleHigh.step {s t : State} (h : IdleHigh s) (hinv : Inv s)
    (hc : ∀ e rest, s.inbox = e :: rest → ¬ e.isCall .engCancel) (hst : step s = .next t) : IdleHigh t := by
  cases step_effect hst with
  | idle hi ht e => exact e ▸ h
  | tick due hd hn hl he =>
    exact IdleHigh.tick (s := { s with now := due }) h ((hinv.atDue hd hn).readyInv hl) hl he
  | issuedTick ctx cmd rest due hi hdec hd hn hl he =>
    exact IdleHigh.tick (s := { s with inbox := rest, now := due }) h
      (((hinv.dropEvent hi).atDue hd hn).readyInv hl) hl he
  | elapsed u rest hi hu hd e => subst e; exact h
  | outsideFsel i v rest hi hf e => subst e; exact h
  | outsideLatch p l rest hi hp e => subst e; exact h.outsideLatch p l hp
  | call ctx cmd rest i hi hdec hx ht he =>
    have hcancel : i ≠ .engCancel := fun e => hc _ rest hi ⟨ctx, cmd, rfl, e ▸ hdec⟩
    exact IdleHigh.effect (s := { s with inbox := rest }) h (hinv.call_assembled hi (fetch_of_decode hdec hx)) ht
      hcancel he

end Sys2Proof

namespace Sys2Proof.Proofs
open Sys2Proof Sys2Proof.Machine

/-- Settles O54: SYS.init drives the pin HIGH, and every step but a cancel keeps `IdleHigh`. -/
theorem lineIsHighWhenNothingIsSent : Obligations.LineIsHighWhenNothingIsSent := by
  refine ⟨fun s t pin baud h => ?_, fun s t hinv h hc hst => h.step hinv hc hst⟩
  have he := exec_effect h
  refine ⟨idleHigh_sysInit he, fun hready => ?_⟩
  obtain ⟨hl, ⟨-, rfl⟩ | ⟨p, rate, -, -, -, rfl⟩⟩ := he
  · exact absurd hready hl
  · exact line_broughtUp p rate s

end Sys2Proof.Proofs
end

section
/-!
SUPPORT. The strobe words an operation writes: every event it adds to the trace that is a write to SET or CLR carries
a single bit.
-/

namespace Sys2Proof.Machine

/-- If the event is a write to a strobe, its word has exactly one bit set (70 R256). -/
def OneBitStrobe : TraceEvent → Prop
  | .regWrite (.set _) m => ∃ k, k < 32 ∧ m = 1#32 <<< k
  | .regWrite (.clr _) m => ∃ k, k < 32 ∧ m = 1#32 <<< k
  | .regWrite (.fsel _) _ => True
  | .regRead _ => True
  | .level _ => True
  | .resp _ _ _ => True

/-- `t` has the trace of `s` and after it only events whose strobe words have one bit. -/
def GainsOneBitStrobes (s t : State) : Prop :=
  ∃ es, t.trace = s.trace ++ es ∧ ∀ e ∈ es, OneBitStrobe e.event

/-- A word written to a strobe acts on the latches and stores nothing else (10 R28). -/
theorem regWrite_strobeReg {s : State} (hm : s.mapped = true) (op : Instr) (b : Fin Config.nbank) (m : Word) (l : Level) :
    regWrite op (strobeReg b l) m s =
      .next { s with out := strobe b m l s.out, trace := s.trace ++ [⟨s.now, .regWrite (strobeReg b l) m⟩] } := by
  rw [regWrite_mapped hm]
  cases l <;> simp [strobeReg, record, applyWrite]

theorem oneBitStrobe_strobeReg (b : Fin Config.nbank) (l : Level) {k : Nat} (hk : k < 32) :
    OneBitStrobe (.regWrite (strobeReg b l) (1#32 <<< k)) := by
  cases l <;> exact ⟨k, hk, rfl⟩

theorem oneBitStrobe_pinWrite (p : Fin Config.npins) (t : Time) (l : Level) :
    ∀ e ∈ pinWrite p t l, OneBitStrobe e.event := by
  have hk : p.val % 32 < 32 := Nat.mod_lt _ (by decide)
  have hw := oneBitStrobe_strobeReg (bank p) l hk
  cases l <;> simpa [pinWrite, strobeReg, OneBitStrobe] using hw

theorem GainsOneBitStrobes.of_trace_eq {s t : State} (h : t.trace = s.trace) : GainsOneBitStrobes s t :=
  ⟨[], by simp [h], by simp⟩

theorem GainsOneBitStrobes.resp {s t : State} (h : GainsOneBitStrobes s t) (i : Instr) (st : Status) (res : Result) :
    GainsOneBitStrobes s (record (.resp i st res) t) := by
  obtain ⟨es, ht, hes⟩ := h
  refine ⟨es ++ [⟨t.now, .resp i st res⟩], by simp [ht], fun e he => ?_⟩
  rcases List.mem_append.1 he with he | he
  · exact hes e he
  · rw [List.mem_singleton.1 he]
    trivial

theorem gainsOneBitStrobes_fieldWritten (r : Fin Config.nfsel) (off : Nat) (code : BitVec 3) (s : State) :
    GainsOneBitStrobes s (fieldWritten r off code s) :=
  ⟨_, rfl, by simp [OneBitStrobe]⟩

theorem gainsOneBitStrobes_bitWritten (b : Fin Config.nbank) (k : Fin 32) (l : Level) (s : State) :
    GainsOneBitStrobes s (bitWritten b k l s) := by
  refine ⟨_, rfl, ?_⟩
  have hw := oneBitStrobe_strobeReg b l k.isLt
  split <;> simpa [OneBitStrobe] using hw

theorem gainsOneBitStrobes_pinDriven (p : Fin Config.npins) (l : Level) (s : State) :
    GainsOneBitStrobes s (pinDriven p l s) :=
  bitWritten_pin p l s ▸ gainsOneBitStrobes_bitWritten (bank p) (bit p) l s

theorem gainsOneBitStrobes_slotSent (buf : List Byte) (f : TxFrame) (l : Level) (s : State) :
    GainsOneBitStrobes s (slotSent buf f l s) := ⟨_, rfl, oneBitStrobe_pinWrite _ _ l⟩

theorem gainsOneBitStrobes_broughtUp (p : Fin Config.npins) (rate : Nat) (s : State) :
    GainsOneBitStrobes s (broughtUp p rate s) := by
  refine ⟨_, List.append_assoc _ _ _, fun e he => ?_⟩
  rcases List.mem_append.1 he with he | he
  · exact oneBitStrobe_pinWrite p s.now .high e he
  · simp only [List.mem_cons, List.not_mem_nil, or_false] at he
    rcases he with rfl | rfl <;> trivial

theorem gainsOneBitStrobes_tick {s t : State} (h : TickEffect s t) : GainsOneBitStrobes s t := by
  cases h with
  | caseA b rest hm hs hb ht => exact ht ▸ gainsOneBitStrobes_slotSent _ _ _ s
  | caseB hs hb ht => exact .of_trace_eq (ht ▸ rfl)
  | caseC f f' l hm hs hf hd hn ht => exact ht ▸ gainsOneBitStrobes_slotSent _ _ _ s
  | caseD f b rest hm hs hf hd hb ht => exact ht ▸ gainsOneBitStrobes_slotSent _ _ _ s
  | caseE f hs hf hd hb ht => exact .of_trace_eq (ht ▸ rfl)

theorem arm_trace (s : State) : (ENG.arm s).trace = s.trace := by
  obtain ⟨-, -, -, -, -, -, -, -, -, -, h⟩ := arm_frame s
  exact h

/-- Only the RB and PD operations, SYS.init and ENG.tick write a register; the rest record their answer alone. -/
theorem gainsOneBitStrobes_effect {i : Instr} {s t : State} (he : Effect i s t) : GainsOneBitStrobes s t := by
  have answered : ∀ {u : State} (st : Status) (res : Result), u.trace = s.trace →
      GainsOneBitStrobes s (record (.resp i st res) u) :=
    fun st res hu => (GainsOneBitStrobes.of_trace_eq hu).resp i st res
  cases i with
  | rbSetFunction => obtain ⟨-, -, r, off, code, rfl⟩ := he; exact (gainsOneBitStrobes_fieldWritten r off code s).resp _ _ _
  | rbSetBit => obtain ⟨-, -, b, k, rfl⟩ := he; exact (gainsOneBitStrobes_bitWritten b k .high s).resp _ _ _
  | rbClearBit => obtain ⟨-, -, b, k, rfl⟩ := he; exact (gainsOneBitStrobes_bitWritten b k .low s).resp _ _ _
  | pdConfigureAsOutput => obtain ⟨-, -, p, rfl⟩ := he; exact (gainsOneBitStrobes_fieldWritten _ _ _ s).resp _ _ _
  | pdWriteLevel => obtain ⟨-, -, p, rfl⟩ := he; exact (gainsOneBitStrobes_pinDriven p _ s).resp _ _ _
  | engTick => obtain ⟨-, -, he⟩ := he; exact gainsOneBitStrobes_tick he
  | sysInit =>
    obtain ⟨-, ⟨-, rfl⟩ | ⟨p, rate, -, -, -, rfl⟩⟩ := he
    · exact answered _ _ rfl
    · exact (gainsOneBitStrobes_broughtUp p rate s).resp _ _ _
  | engArm => obtain ⟨-, rfl⟩ := he; exact answered _ _ (arm_trace s)
  | encNextBit => obtain ⟨-, l, f, -, rfl⟩ := he; exact answered _ _ rfl
  | timerSchedule => obtain ⟨-, -, rfl⟩ := he; exact answered _ _ rfl
  | mbEnqueue => obtain ⟨-, ⟨-, rfl⟩ | ⟨-, -, rfl⟩ | ⟨-, -, rfl⟩⟩ := he <;> exact answered _ _ rfl
  | mbDequeue => obtain ⟨-, b, rest, -, rfl⟩ := he; exact answered _ _ rfl
  | devWrite =>
    obtain ⟨-, -, ⟨-, rfl⟩ | ⟨-, -, rfl⟩ | ⟨-, -, rfl⟩⟩ := he
    · exact answered _ _ rfl
    · exact answered _ _ rfl
    · exact answered _ _ (arm_trace _)
  | devRead => obtain ⟨-, rfl | rfl⟩ := he <;> exact answered _ _ rfl
  | _ => obtain ⟨-, rfl⟩ := he; exact answered _ _ rfl

end Sys2Proof.Machine

namespace Sys2Proof.Proofs
open Sys2Proof Sys2Proof.Machine

/-- Settles O16: a strobe acts latch by latch, and the words come from `1 << bit` alone. -/
theorem strobeWordsMoveTheirPins : Obligations.StrobeWordsMoveTheirPins := by
  refine ⟨fun s op b m hm => ⟨?_, ?_, ?_⟩, ?_⟩
  · exact ⟨_, fun p => strobe_getElem b m .high s.out p p.isLt, regWrite_strobeReg hm op b m .high⟩
  · exact ⟨_, fun p => strobe_getElem b m .low s.out p p.isLt, regWrite_strobeReg hm op b m .low⟩
  · intro k
    exact ⟨if_pos hm, if_pos hm⟩
  · intro i s t es b m at_ h ht hmem
    obtain ⟨es', ht', hes⟩ := gainsOneBitStrobes_effect (exec_effect h)
    obtain rfl : es = es' := List.append_cancel_left (ht.symm.trans ht')
    rcases hmem with hmem | hmem
    · exact hes _ hmem
    · exact hes _ hmem

end Sys2Proof.Proofs
end

section
/-!
SUPPORT. No operation reads the observation trace: with other events in front of the trace it takes the same step, with
those events still in front. Each shared operation, then each operation of the block, then the step.
-/

namespace Sys2Proof.Machine

/-- The state with these events in front of its trace. -/
def prependTrace (tr : List Stamped) (s : State) : State := { s with trace := tr ++ s.trace }

@[simp] theorem prependTrace_buf (tr : List Stamped) (s : State) : (prependTrace tr s).buf = s.buf := rfl
@[simp] theorem prependTrace_frame (tr : List Stamped) (s : State) : (prependTrace tr s).frame = s.frame := rfl
@[simp] theorem prependTrace_state (tr : List Stamped) (s : State) : (prependTrace tr s).state = s.state := rfl
@[simp] theorem prependTrace_timer (tr : List Stamped) (s : State) : (prependTrace tr s).timer = s.timer := rfl

/-- The outcome with `g` applied to its next state, if it has one. -/
def mapNext (g : State → State) : Out → Out
  | .next s => .next (g s)
  | .fault f => .fault f
  | .refused r => .refused r

@[simp] theorem mapNext_next (g : State → State) (s : State) : mapNext g (.next s) = .next (g s) := rfl
@[simp] theorem mapNext_fault (g : State → State) (f : Fault) : mapNext g (.fault f) = .fault f := rfl
@[simp] theorem mapNext_refused (g : State → State) (r : Refusal) : mapNext g (.refused r) = .refused r := rfl

/-- The update keeps whatever stands in front of the trace. -/
def KeepsPrefix (g : State → State) : Prop := ∀ tr s, g (prependTrace tr s) = prependTrace tr (g s)

/-- The operation does not read the trace (10 R38). -/
def TraceBlind (k : State → Out) : Prop := ∀ tr s, k (prependTrace tr s) = mapNext (prependTrace tr) (k s)

/-! Sequencing and branching. -/

theorem TraceBlind.refused (r : Refusal) : TraceBlind fun _ => .refused r := fun _ _ => rfl

theorem TraceBlind.next {g : State → State} (hg : KeepsPrefix g) : TraceBlind fun s => .next (g s) :=
  fun tr s => congrArg Host.Outcome.next (hg tr s)

theorem TraceBlind.andThen {o k : State → Out} (ho : TraceBlind o) (hk : TraceBlind k) :
    TraceBlind fun s => andThen (o s) k := by
  intro tr s
  simp only [ho tr s]
  cases o s with
  | next u => exact hk tr u
  | fault f => rfl
  | refused r => rfl

theorem TraceBlind.comp {k : State → Out} (hk : TraceBlind k) {g : State → State} (hg : KeepsPrefix g) :
    TraceBlind fun s => k (g s) := by
  intro tr s
  simp only [hg tr s, hk tr (g s)]

/-- The condition does not read the trace, and neither branch does. -/
theorem TraceBlind.ite {c : State → Prop} [DecidablePred c] {k k' : State → Out}
    (hc : ∀ tr s, c (prependTrace tr s) ↔ c s) (hk : TraceBlind k) (hk' : TraceBlind k') :
    TraceBlind fun s => if c s then k s else k' s := by
  intro tr s
  by_cases h : c s
  · simp only [(hc tr s).2 h, h, if_true, hk tr s]
  · simp only [mt (hc tr s).1 h, h, if_false, hk' tr s]

theorem TraceBlind.whenReady {k : State → Out} (hk : TraceBlind k) : TraceBlind fun s => whenReady s k :=
  .ite (fun _ _ => Iff.rfl) hk (.refused _)

/-! The updates of the state. -/

theorem keepsPrefix_id : KeepsPrefix fun s => s := fun _ _ => rfl

theorem keepsPrefix_record (ev : TraceEvent) : KeepsPrefix (record ev) := by
  intro tr s
  simp [record, prependTrace]

theorem keepsPrefix_fieldWritten (r : Fin Config.nfsel) (off : Nat) (code : BitVec 3) :
    KeepsPrefix (fieldWritten r off code) := by
  intro tr s
  simp [fieldWritten, prependTrace]

theorem keepsPrefix_bitWritten (b : Fin Config.nbank) (k : Fin 32) (l : Level) : KeepsPrefix (bitWritten b k l) := by
  intro tr s
  simp only [bitWritten, prependTrace, List.append_assoc]
  rfl

theorem keepsPrefix_broughtUp (p : Fin Config.npins) (rate : Nat) : KeepsPrefix (broughtUp p rate) := by
  intro tr s
  simp [broughtUp, prependTrace]

theorem keepsPrefix_arm : KeepsPrefix ENG.arm := by
  intro tr s
  unfold ENG.arm
  by_cases h : s.state = .idle ∧ s.buf ≠ []
  · rw [if_pos h]
    exact if_pos h
  · rw [if_neg h]
    exact if_neg h

theorem keepsPrefix_toDue : KeepsPrefix toDue := by
  intro tr s
  cases ht : s.timer with
  | none => rw [toDue_none ht, toDue_none (s := prependTrace tr s) ht]
  | some due =>
    by_cases hn : s.now ≤ due
    · rw [toDue_due ht hn, toDue_due (s := prependTrace tr s) ht hn]
      rfl
    · rw [toDue_late ht hn, toDue_late (s := prependTrace tr s) ht hn]

theorem traceBlind_reply (op : Instr) (st : Status) (res : Result) : TraceBlind (reply op st res) :=
  .next (keepsPrefix_record _)

/-- An answer after an update of the state. -/
theorem traceBlind_reply_after {g : State → State} (hg : KeepsPrefix g) (op : Instr) (st : Status) (res : Result) :
    TraceBlind fun s => reply op st res (g s) := (traceBlind_reply op st res).comp hg

/-! The register bank and the pin. -/

/-- An access to the bank faults or makes one update (20 R67). -/
theorem traceBlind_of_mapped {k : State → Out} {g : State → State} {f : Fault} (hg : KeepsPrefix g)
    (hk : ∀ s : State, s.mapped = true → k s = .next (g s)) (hf : ∀ s : State, s.mapped = false → k s = .fault f) :
    TraceBlind k := by
  intro tr s
  cases hm : s.mapped with
  | true => rw [hk s hm, hk (prependTrace tr s) hm, hg tr s]; rfl
  | false => rw [hf s hm, hf (prependTrace tr s) hm]; rfl

theorem traceBlind_setFunction (r : Fin Config.nfsel) (off : Nat) (code : BitVec 3) :
    TraceBlind (RB.setFunction r off code) :=
  traceBlind_of_mapped (keepsPrefix_fieldWritten r off code) (fun _ h => setFunction_mapped h r off code)
    (fun _ h => setFunction_unmapped h r off code)

theorem traceBlind_setBit (b : Fin Config.nbank) (k : Fin 32) : TraceBlind (RB.setBit b k) :=
  traceBlind_of_mapped (keepsPrefix_bitWritten b k .high) (fun _ h => setBit_mapped h b k)
    (fun _ h => setBit_unmapped h b k)

theorem traceBlind_clearBit (b : Fin Config.nbank) (k : Fin 32) : TraceBlind (RB.clearBit b k) :=
  traceBlind_of_mapped (keepsPrefix_bitWritten b k .low) (fun _ h => clearBit_mapped h b k)
    (fun _ h => clearBit_unmapped h b k)

theorem traceBlind_writeLevel (p : Fin Config.npins) (high : Bool) : TraceBlind (PD.writeLevel p high) := by
  cases high with
  | true => exact traceBlind_setBit (bank p) (bit p)
  | false => exact traceBlind_clearBit (bank p) (bit p)

/-! The engine. -/

theorem traceBlind_emitSlot (due : Time) (f : TxFrame) : TraceBlind (emitSlot due f) := by
  unfold emitSlot
  cases ENC.nextBit f with
  | error r => exact .refused r
  | ok lf =>
    obtain ⟨l, f'⟩ := lf
    exact .andThen (fun tr s => traceBlind_writeLevel s.cfg.logicalPin _ tr { s with frame := some f' })
      (.next fun _ _ => rfl)

theorem traceBlind_startFrame (due : Time) : TraceBlind (startFrame due) := by
  intro tr s
  simp only [startFrame, MB.dequeue, prependTrace_buf]
  cases s.buf with
  | nil => rfl
  | cons b rest => exact traceBlind_emitSlot due (ENC.fresh b) tr { s with buf := rest }

theorem traceBlind_tickCases (due : Time) : TraceBlind (tickCases due) := by
  have caseA : TraceBlind (tickA due) := (traceBlind_startFrame due).andThen (.next fun _ _ => rfl)
  have caseB : TraceBlind tickB := .next fun _ _ => rfl
  have caseC : ∀ f, TraceBlind (tickC due f) := fun f => (traceBlind_emitSlot due f).andThen (.next keepsPrefix_id)
  have caseD : TraceBlind (tickD due) := (traceBlind_startFrame due).andThen (.next keepsPrefix_id)
  have caseE : TraceBlind tickE := .next fun _ _ => rfl
  have armed : TraceBlind fun s => if s.buf = [] then tickB s else tickA due s :=
    .ite (fun _ _ => Iff.rfl) caseB caseA
  have finished : TraceBlind fun s => if s.buf = [] then tickE s else tickD due s :=
    .ite (fun _ _ => Iff.rfl) caseE caseD
  intro tr s
  simp only [tickCases, prependTrace_state, prependTrace_frame]
  cases s.state with
  | idle => rfl
  | armed => exact armed tr s
  | transmitting =>
    cases s.frame with
    | none => rfl
    | some f => exact TraceBlind.ite (c := fun _ => f.done = true) (fun _ _ => Iff.rfl) finished (caseC f) tr s

theorem traceBlind_enterCallback {k : Time → State → Out} (hk : ∀ due, TraceBlind (k due)) :
    TraceBlind fun s => enterCallback s k := by
  intro tr s
  simp only [enterCallback, prependTrace_timer]
  cases s.timer with
  | none => rfl
  | some due =>
    exact TraceBlind.ite (c := fun s => s.now = due) (fun _ _ => Iff.rfl)
      ((hk due).comp (g := clearTimer) fun _ _ => rfl) (.refused _) tr s

/-! The message buffer and the device file. -/

theorem enqueue_prependTrace (bytes : List Byte) (tr : List Stamped) (s : State) :
    MB.enqueue bytes (prependTrace tr s) =
      ((MB.enqueue bytes s).1, prependTrace tr (MB.enqueue bytes s).2) := by
  unfold MB.enqueue
  by_cases hlen : bytes.length > Config.capacity
  · rw [if_pos hlen, if_pos hlen]
  · rw [if_neg hlen, if_neg hlen]
    by_cases hs : s.state ≠ .idle
    · rw [if_pos hs]
      exact if_pos hs
    · rw [if_neg hs]
      exact if_neg hs

theorem traceBlind_mbEnqueue (bytes : List Byte) : TraceBlind (execMbEnqueue bytes) := by
  refine .whenReady fun tr s => ?_
  simp only [enqueue_prependTrace]
  exact traceBlind_reply _ _ _ tr _

theorem traceBlind_devWrite (data : List Byte) (length : Nat) : TraceBlind (execDevWrite data length) := by
  refine .whenReady (.ite (fun _ _ => Iff.rfl) (.refused _) fun tr s => ?_)
  simp only [enqueue_prependTrace]
  obtain ⟨st, u⟩ := MB.enqueue (messageText data length) s
  cases st with
  | ok => exact traceBlind_reply_after keepsPrefix_arm _ _ _ tr u
  | _ => exact traceBlind_reply _ _ _ tr u

theorem traceBlind_mbDequeue : TraceBlind execMbDequeue := by
  refine .whenReady fun tr s => ?_
  simp only [MB.dequeue, prependTrace_buf]
  cases s.buf with
  | nil => rfl
  | cons b rest => exact traceBlind_reply _ _ _ tr { s with buf := rest }

theorem traceBlind_devRead (cap : Nat) (copyOk : Bool) : TraceBlind (execDevRead cap copyOk) :=
  .whenReady <| .ite (c := fun s => min cap s.buf.length > 0 ∧ copyOk = false) (fun _ _ => Iff.rfl)
    (traceBlind_reply _ _ _) fun tr s => traceBlind_reply _ _ _ tr { s with buf := [] }

/-! The operations and the step. -/

/-- Whatever SYS.init finds, it refuses, answers or brings the block up, by what it reads elsewhere (46 R190). -/
theorem traceBlind_sysInit (pin baud : Option Int) : TraceBlind (execSysInit pin baud) := by
  unfold execSysInit
  refine .ite (fun _ _ => Iff.rfl) (.refused _) (.ite (fun _ _ => Iff.rfl) (traceBlind_reply _ _ _) ?_)
  cases finOf Config.npins (pinOrDefault pin) with
  | none => exact traceBlind_reply _ _ _
  | some p =>
    simp only [bringUp_eq, andThen_next]
    exact traceBlind_reply_after (keepsPrefix_broughtUp p _) _ _ _

/-- No operation reads the trace (10 R38). -/
theorem traceBlind_exec (i : Instr) : TraceBlind (exec i) := by
  cases i with
  | rbSetFunction r off code =>
    refine .whenReady ?_
    cases finOf Config.nfsel r <;> cases offsetOf off <;> cases codeOf code
    case some.some.some r off code => exact (traceBlind_setFunction r off code).andThen (traceBlind_reply _ _ _)
    all_goals exact .refused _
  | rbSetBit b k =>
    refine .whenReady ?_
    cases finOf Config.nbank b <;> cases finOf 32 k
    case some.some b k => exact (traceBlind_setBit b k).andThen (traceBlind_reply _ _ _)
    all_goals exact .refused _
  | rbClearBit b k =>
    refine .whenReady ?_
    cases finOf Config.nbank b <;> cases finOf 32 k
    case some.some b k => exact (traceBlind_clearBit b k).andThen (traceBlind_reply _ _ _)
    all_goals exact .refused _
  | pdConfigureAsOutput p =>
    refine .whenReady ?_
    cases finOf Config.npins p with
    | none => exact .refused _
    | some p => exact (traceBlind_setFunction _ _ _).andThen (traceBlind_reply _ _ _)
  | pdWriteLevel p h =>
    refine .whenReady ?_
    cases finOf Config.npins p with
    | none => exact .refused _
    | some p => exact (traceBlind_writeLevel p h).andThen (traceBlind_reply _ _ _)
  | encFresh b => exact .whenReady (traceBlind_reply _ _ _)
  | encNextBit f =>
    refine .whenReady ?_
    cases ENC.nextBit f with
    | error r => exact .refused r
    | ok lf => exact traceBlind_reply _ _ _
  | engArm => exact .whenReady (traceBlind_reply_after keepsPrefix_arm _ _ _)
  | engCancel => exact .whenReady (traceBlind_reply_after (fun _ _ => rfl) _ _ _)
  | engTick => exact .whenReady (traceBlind_enterCallback traceBlind_tickCases)
  | timerSchedule due =>
    exact .whenReady (.ite (fun _ _ => Iff.rfl) (.refused _) (traceBlind_reply_after (fun _ _ => rfl) _ _ _))
  | timerDeschedule => exact .whenReady (traceBlind_reply_after (fun _ _ => rfl) _ _ _)
  | mbEnqueue bs => exact traceBlind_mbEnqueue bs
  | mbConsume => exact .whenReady fun tr s => traceBlind_reply _ _ _ tr { s with buf := [] }
  | mbIsEmpty => exact .whenReady fun tr s => traceBlind_reply _ _ _ tr s
  | mbDequeue => exact traceBlind_mbDequeue
  | sysInit pin baud => exact traceBlind_sysInit pin baud
  | sysTeardown => exact .whenReady (traceBlind_reply_after (fun _ _ => rfl) _ _ _)
  | devOpen => exact .whenReady (traceBlind_reply_after (fun _ _ => rfl) _ _ _)
  | devWrite d n => exact traceBlind_devWrite d n
  | devRead cap ok => exact traceBlind_devRead cap ok
  | devClose => exact .whenReady (traceBlind_reply _ _ _)

theorem traceBlind_fireTick : TraceBlind fireTick := (traceBlind_exec .engTick).comp keepsPrefix_toDue

theorem keepsPrefix_issued (i : Instr) (rest : List Event) : KeepsPrefix (issued i rest) := by
  intro tr s
  cases i with
  | engTick => exact keepsPrefix_toDue tr { s with inbox := rest }
  | _ => rfl

theorem traceBlind_idleStep : TraceBlind idleStep :=
  .ite (c := fun s => callbackPending s = true) (fun _ _ => Iff.rfl) traceBlind_fireTick (.next keepsPrefix_id)

theorem traceBlind_elapse (u : Time) (rest : List Event) : TraceBlind (elapse u rest) := by
  refine .ite (fun _ _ => Iff.rfl) (.refused _) fun tr s => ?_
  simp only [prependTrace_timer]
  cases s.timer with
  | none => rfl
  | some due =>
    simp only
    split
    · exact traceBlind_fireTick tr s
    · rfl

theorem traceBlind_outsideFsel (i : Fin Config.nfsel) (v : Word) (rest : List Event) :
    TraceBlind (outsideFsel i v rest) :=
  .ite (c := fun s => s.life = .ready ∧ pinField { s with fsel := s.fsel.set i v, inbox := rest } ≠ pinField s)
    (fun _ _ => Iff.rfl) (.refused _) (.next fun _ _ => rfl)

theorem traceBlind_outsideLatch (p : Fin Config.npins) (l : Level) (rest : List Event) :
    TraceBlind (outsideLatch p l rest) :=
  .ite (c := fun s => s.life = .ready ∧ p = s.cfg.logicalPin) (fun _ _ => Iff.rfl) (.refused _) (.next fun _ _ => rfl)

/-- No step reads the trace (10 R38). -/
theorem traceBlind_step : TraceBlind step := by
  intro tr s
  cases hi : s.inbox with
  | nil =>
    rw [step_of_inbox_nil hi, step_of_inbox_nil (s := prependTrace tr s) hi]
    exact traceBlind_idleStep tr s
  | cons e rest =>
    cases e with
    | elapse u =>
      rw [step_of_elapse hi, step_of_elapse (s := prependTrace tr s) hi]
      exact traceBlind_elapse u rest tr s
    | outsideFsel i v =>
      rw [step_of_outsideFsel hi, step_of_outsideFsel (s := prependTrace tr s) hi]
      exact traceBlind_outsideFsel i v rest tr s
    | outsideLatch p l =>
      rw [step_of_outsideLatch hi, step_of_outsideLatch (s := prependTrace tr s) hi]
      exact traceBlind_outsideLatch p l rest tr s
    | call ctx cmd =>
      cases hf : fetch ctx cmd with
      | error r => rw [step_of_call_rejected hi hf, step_of_call_rejected (s := prependTrace tr s) hi hf, mapNext_refused]
      | ok i =>
        rw [step_of_call_fetched hi hf, step_of_call_fetched (s := prependTrace tr s) hi hf]
        exact (traceBlind_exec i).comp (keepsPrefix_issued i rest) tr s

end Sys2Proof.Machine

namespace Sys2Proof.Proofs
open Sys2Proof Sys2Proof.Machine

/-- A state is its own trace put in front of any state that differs from it only in the trace and has none. -/
theorem prependTrace_of_sameButTrace {s u : State} (h : SameButTrace s u) :
    prependTrace s.trace { u with trace := [] } = s := by
  have e : { s with trace := [] } = { u with trace := [] } := h
  rw [← e]
  simp [prependTrace]

/-- Settles O58: the step of either state is the step of the state without a trace, with its own trace in front. -/
theorem traceIsNeverRead : Obligations.TraceIsNeverRead := by
  intro s s' h
  have hs : step s = mapNext (prependTrace s.trace) (step { s' with trace := [] }) := by
    rw [← traceBlind_step, prependTrace_of_sameButTrace h]
  have hs' : step s' = mapNext (prependTrace s'.trace) (step { s' with trace := [] }) := by
    rw [← traceBlind_step, prependTrace_of_sameButTrace rfl]
  rw [hs, hs']
  cases step { s' with trace := [] } with
  | next u =>
    refine ⟨fun t ht => ?_, by simp, by simp⟩
    cases ht
    exact ⟨_, u.trace, rfl, rfl, rfl, rfl⟩
  | fault g => simp
  | refused q => simp

end Sys2Proof.Proofs
end

section
/-!
SUPPORT for the memory statements: the map of the register block. Each register's address, that no two registers share
one, and that the register found at an address is the one that lives there.
-/

namespace Sys2Proof.Machine

/-! The addresses (20 R61). -/

theorem regAddr_fsel (i : Fin Config.nfsel) : regAddr (.fsel i) = Config.gpioBase + 4 * i.val := rfl

theorem regAddr_set (b : Fin Config.nbank) : regAddr (.set b) = Config.gpioBase + 0x1C + 4 * b.val := by
  rw [Nat.add_assoc]
  rfl

theorem regAddr_clr (b : Fin Config.nbank) : regAddr (.clr b) = Config.gpioBase + 0x28 + 4 * b.val := by
  rw [Nat.add_assoc]
  rfl

theorem gpioBase_aligned : Config.gpioBase % 4 = 0 := Nat.mul_mod_right 4 _

theorem regAddr_aligned (r : Reg) : regAddr r % 4 = 0 := by
  have hbase := gpioBase_aligned
  cases r with
  | fsel i => rw [regAddr_fsel]; omega
  | set b => rw [regAddr_set]; omega
  | clr b => rw [regAddr_clr]; omega

/-- The offsets of FSEL end at 0x14, those of SET at 0x20, and those of CLR start at 0x28 (20 R61). -/
theorem regAddr_injective : Function.Injective regAddr := by
  have fsel_lt : ∀ i : Fin Config.nfsel, i.val < 6 := fun i => i.isLt
  have bank_lt : ∀ b : Fin Config.nbank, b.val < 2 := fun b => b.isLt
  intro r r' h
  cases r with
  | fsel i =>
    have hi := fsel_lt i
    cases r' with
    | fsel j =>
      rw [regAddr_fsel, regAddr_fsel] at h
      exact congrArg Reg.fsel (Fin.ext (by omega))
    | set b => rw [regAddr_fsel, regAddr_set] at h; omega
    | clr b => rw [regAddr_fsel, regAddr_clr] at h; omega
  | set b =>
    have hb := bank_lt b
    cases r' with
    | fsel i => have hi := fsel_lt i; rw [regAddr_set, regAddr_fsel] at h; omega
    | set c =>
      rw [regAddr_set, regAddr_set] at h
      exact congrArg Reg.set (Fin.ext (by omega))
    | clr c => rw [regAddr_set, regAddr_clr] at h; omega
  | clr b =>
    cases r' with
    | fsel i => have hi := fsel_lt i; rw [regAddr_clr, regAddr_fsel] at h; omega
    | set c => have hc := bank_lt c; rw [regAddr_clr, regAddr_set] at h; omega
    | clr c =>
      rw [regAddr_clr, regAddr_clr] at h
      exact congrArg Reg.clr (Fin.ext (by omega))

/-! Access by address (20 R62). -/

theorem mem_allRegs (r : Reg) : r ∈ allRegs := by
  cases r <;> simp [allRegs]

theorem find?_regAddr (r : Reg) : allRegs.find? (fun r' => regAddr r' == regAddr r) = some r := by
  cases hf : allRegs.find? fun r' => regAddr r' == regAddr r with
  | none =>
    have hr := List.find?_eq_none.1 hf r (mem_allRegs r)
    simp at hr
  | some r' =>
    have haddr : regAddr r' = regAddr r := by simpa using List.find?_some hf
    rw [regAddr_injective haddr]

@[simp] theorem regAt_regAddr (r : Reg) : regAt (regAddr r) 4 = .ok r := by
  simp [regAt, regAddr_aligned, find?_regAddr]

@[simp] theorem memRead_regAddr (op : Instr) (r : Reg) (s : State) (k : Word → State → Out) :
    memRead op (regAddr r) 4 s k = regRead op r s k := by
  simp [memRead]

@[simp] theorem memWrite_regAddr (op : Instr) (r : Reg) (v : Word) (s : State) :
    memWrite op (regAddr r) 4 v s = regWrite op r v s := by
  simp [memWrite]

end Sys2Proof.Machine

namespace Sys2Proof.Proofs
open Sys2Proof Sys2Proof.Machine

/-- Settles O17: the map of R61 is injective and word aligned, so the search for an address ends at its register. -/
theorem registersAnswerAtTheirAddresses : Obligations.RegistersAnswerAtTheirAddresses :=
  ⟨regAddr_fsel, regAddr_set, regAddr_clr, fun _ _ h => regAddr_injective h, fun r op s v k =>
    ⟨regAddr_aligned r, memRead_regAddr op r s k, memWrite_regAddr op r v s⟩⟩

end Sys2Proof.Proofs
end

section
/-!
SUPPORT for the fault Unmapped (60 R217): which actions cannot fault, built up to the step, and the tick that does fault
when it finds the bank unmapped.
-/

namespace Sys2Proof
open Sys2Proof.Machine

/-! Sequencing and branching. -/

theorem NoFault.next (s : State) : NoFault (.next s) := fun _ h => nomatch h

theorem NoFault.refused (r : Refusal) : NoFault (.refused r) := fun _ h => nomatch h

theorem NoFault.reply (op : Instr) (st : Status) (res : Result) (s : State) : NoFault (reply op st res s) := .next _

theorem NoFault.andThen {o : Out} {k : State → Out} (ho : NoFault o) (hk : ∀ u, NoFault (k u)) :
    NoFault (andThen o k) := by
  intro f h
  rcases andThen_eq_fault.1 h with h | ⟨u, -, h⟩
  · exact ho f h
  · exact hk u f h

theorem NoFault.ite {c : Prop} [Decidable c] {o o' : Out} (h : NoFault o) (h' : NoFault o') :
    NoFault (if c then o else o') := by
  split
  · exact h
  · exact h'

/-- Outside READY the operation is refused, so it may assume that the block is READY. -/
theorem NoFault.whenReady {s : State} {k : State → Out} (h : s.life = .ready → NoFault (k s)) :
    NoFault (whenReady s k) := by
  by_cases hl : s.life = .ready
  · rw [whenReady_ready hl]
    exact h hl
  · rw [whenReady_notReady hl]
    exact .refused _

/-! The register bank and the engine, with the bank mapped. -/

section
variable {s : State} (hm : s.mapped = true)
include hm

theorem noFault_setFunction (r : Fin Config.nfsel) (off : Nat) (code : BitVec 3) :
    NoFault (RB.setFunction r off code s) := setFunction_mapped hm r off code ▸ .next _

theorem noFault_setBit (b : Fin Config.nbank) (k : Fin 32) : NoFault (RB.setBit b k s) :=
  setBit_mapped hm b k ▸ .next _

theorem noFault_clearBit (b : Fin Config.nbank) (k : Fin 32) : NoFault (RB.clearBit b k s) :=
  clearBit_mapped hm b k ▸ .next _

theorem noFault_writeLevel (p : Fin Config.npins) (high : Bool) : NoFault (PD.writeLevel p high s) :=
  writeLevel_mapped hm p high ▸ .next _

theorem noFault_emitSlot (due : Time) (f : TxFrame) : NoFault (emitSlot due f s) := by
  unfold emitSlot
  cases ENC.nextBit f with
  | error r => exact .refused r
  | ok lf => exact .andThen (noFault_writeLevel (s := { s with frame := some lf.2 }) hm _ _) fun _ => .next _

theorem noFault_startFrame (due : Time) : NoFault (startFrame due s) := by
  unfold startFrame MB.dequeue
  cases s.buf with
  | nil => exact .refused _
  | cons b rest => exact noFault_emitSlot (s := { s with buf := rest }) hm due (ENC.fresh b)

theorem noFault_tickCases (due : Time) : NoFault (tickCases due s) := by
  have started : ∀ k : State → State, NoFault (andThen (startFrame due s) fun u => leaveCallback (k u)) :=
    fun _ => .andThen (noFault_startFrame hm due) fun _ => .next _
  unfold tickCases
  cases s.state with
  | idle => exact .refused _
  | armed => exact .ite (.next _) (started _)
  | transmitting =>
    cases s.frame with
    | none => exact .refused _
    | some f =>
      exact .ite (.ite (.next _) (started id)) (.andThen (noFault_emitSlot hm due f) fun _ => .next _)

theorem noFault_enterCallback : NoFault (enterCallback s tickCases) := by
  unfold enterCallback
  cases s.timer with
  | none => exact .refused _
  | some due => exact .ite (noFault_tickCases (s := clearTimer s) hm due) (.refused _)

end

/-! The operations and the step. -/

/-- SYS.init maps the bank before it touches a register (46 R190), so it does not fault, whatever it finds. -/
theorem noFault_sysInit (pin baud : Option Int) (s : State) : NoFault (execSysInit pin baud s) := by
  unfold execSysInit
  refine .ite (.refused _) (.ite (.reply _ _ _ _) ?_)
  cases finOf Config.npins (pinOrDefault pin) with
  | none => exact .reply _ _ _ _
  | some p =>
    simp only [bringUp_eq]
    exact .andThen (.next _) fun _ => .reply _ _ _ _

theorem noFault_devWrite (data : List Byte) (length : Nat) (s : State) : NoFault (execDevWrite data length s) := by
  refine .whenReady fun _ => .ite (.refused _) ?_
  obtain ⟨st, u⟩ := MB.enqueue (messageText data length) s
  cases st <;> exact .reply _ _ _ _

/-- No operation faults in a state whose bank is mapped if it is READY. -/
theorem noFault_exec {s : State} (hm : s.life = .ready → s.mapped = true) (i : Instr) : NoFault (exec i s) := by
  unfold exec
  cases i with
  | rbSetFunction r off code =>
    refine .whenReady fun hl => ?_
    cases finOf Config.nfsel r <;> cases offsetOf off <;> cases codeOf code
    case some.some.some => exact .andThen (noFault_setFunction (hm hl) _ _ _) fun _ => .reply _ _ _ _
    all_goals exact .refused _
  | rbSetBit b k =>
    refine .whenReady fun hl => ?_
    cases finOf Config.nbank b <;> cases finOf 32 k
    case some.some => exact .andThen (noFault_setBit (hm hl) _ _) fun _ => .reply _ _ _ _
    all_goals exact .refused _
  | rbClearBit b k =>
    refine .whenReady fun hl => ?_
    cases finOf Config.nbank b <;> cases finOf 32 k
    case some.some => exact .andThen (noFault_clearBit (hm hl) _ _) fun _ => .reply _ _ _ _
    all_goals exact .refused _
  | pdConfigureAsOutput p =>
    refine .whenReady fun hl => ?_
    cases finOf Config.npins p with
    | none => exact .refused _
    | some p => exact .andThen (noFault_setFunction (hm hl) _ _ _) fun _ => .reply _ _ _ _
  | pdWriteLevel p high =>
    refine .whenReady fun hl => ?_
    cases finOf Config.npins p with
    | none => exact .refused _
    | some p => exact .andThen (noFault_writeLevel (hm hl) p high) fun _ => .reply _ _ _ _
  | encNextBit f =>
    refine .whenReady fun _ => ?_
    cases ENC.nextBit f with
    | error r => exact .refused r
    | ok lf => exact .reply _ _ _ _
  | engTick => exact .whenReady fun hl => noFault_enterCallback (hm hl)
  | timerSchedule due => exact .whenReady fun _ => .ite (.refused _) (.reply _ _ _ _)
  | mbDequeue =>
    refine .whenReady fun _ => ?_
    cases MB.dequeue s with
    | none => exact .refused _
    | some bs => exact .reply _ _ _ _
  | sysInit pin baud => exact noFault_sysInit pin baud s
  | devWrite data length => exact noFault_devWrite data length s
  | devRead cap ok => exact .whenReady fun _ => .ite (.reply _ _ _ _) (.reply _ _ _ _)
  | _ => exact .whenReady fun _ => .reply _ _ _ _

theorem noFault_fireTick {s : State} (hm : s.life = .ready → s.mapped = true) : NoFault (fireTick s) :=
  noFault_exec (by simpa using hm) .engTick

theorem noFault_elapse {s : State} (hm : s.life = .ready → s.mapped = true) (u : Time) (rest : List Event) :
    NoFault (elapse u rest s) := by
  unfold elapse
  refine .ite (.refused _) ?_
  cases s.timer with
  | none => exact .next _
  | some due => exact .ite (noFault_fireTick hm) (.next _)

@[simp] theorem issued_life (i : Instr) (rest : List Event) (s : State) : (issued i rest s).life = s.life := by
  cases i with
  | engTick => exact toDue_life _
  | _ => rfl

@[simp] theorem issued_mapped (i : Instr) (rest : List Event) (s : State) : (issued i rest s).mapped = s.mapped := by
  cases i with
  | engTick => exact toDue_mapped _
  | _ => rfl

/-- No step faults from a state whose bank is mapped if it is READY. -/
theorem noFault_step {s : State} (hm : s.life = .ready → s.mapped = true) : NoFault (step s) := by
  cases hi : s.inbox with
  | nil =>
    rw [step_of_inbox_nil hi]
    exact .ite (noFault_fireTick hm) (.next _)
  | cons e rest =>
    cases e with
    | elapse u =>
      rw [step_of_elapse hi]
      exact noFault_elapse hm u rest
    | outsideFsel i v =>
      rw [step_of_outsideFsel hi]
      exact .ite (.refused _) (.next _)
    | outsideLatch p l =>
      rw [step_of_outsideLatch hi]
      exact .ite (.refused _) (.next _)
    | call ctx cmd =>
      cases hf : fetch ctx cmd with
      | error r => exact step_of_call_rejected hi hf ▸ .refused r
      | ok i =>
        rw [step_of_call_fetched hi hf]
        exact noFault_exec (by simpa using hm) i

/-- The bank of a READY block is mapped (10 R26). -/
theorem Inv.mapped_of_ready {s : State} (h : Inv s) (hl : s.life = .ready) : s.mapped = true := by
  obtain ⟨-, -, hm, -, -⟩ := h
  exact hm.2 hl

end Sys2Proof

namespace Sys2Proof.Machine

/-- The start bit of a frame is LOW, so starting one while unmapped faults at the clear strobe (44 R153, 60 R217). -/
theorem startFrame_unmapped {s : State} {b : Byte} {rest : List Byte} (hm : s.mapped = false) (hb : s.buf = b :: rest)
    (due : Time) :
    startFrame due s = .fault (.unmapped (.clr (bank s.cfg.logicalPin))
      (.rbClearBit (bank s.cfg.logicalPin).val (bit s.cfg.logicalPin).val)) := by
  have start_bit : ENC.nextBit (ENC.fresh b) = .ok (.low, ⟨b, 0, false⟩) := rfl
  have low_write := clearBit_unmapped (s := { s with buf := rest, frame := some ⟨b, 0, false⟩ }) hm
    (bank s.cfg.logicalPin) (bit s.cfg.logicalPin)
  simp [startFrame, MB.dequeue, hb, emitSlot, start_bit, PD.writeLevel, low_write]

end Sys2Proof.Machine

namespace Sys2Proof.Proofs
open Sys2Proof Sys2Proof.Machine

/-- Settles O18: a register access tests the mapping first, and of the actions of a step only a register access faults. -/
theorem unmappedAccessFaultsAndIsUnreachable : Obligations.UnmappedAccessFaultsAndIsUnreachable := by
  refine ⟨?_, ?_, ?_, fun s h => noFault_step h.mapped_of_ready⟩
  · intro s r op v k hm
    rw [memRead_regAddr, memWrite_regAddr]
    exact ⟨regRead_unmapped hm op r k, regWrite_unmapped hm op r v, regRead_unmapped hm op r k,
      regWrite_unmapped hm op r v⟩
  · intro s f n h
    have hcore : core.step s = .fault f := h
    simp [Host.Core.run, hcore]
  · rintro s due hl hm ht rfl hs hb
    obtain ⟨b, rest, hb⟩ := List.exists_cons_of_ne_nil hb
    refine ⟨.rbClearBit (bank s.cfg.logicalPin).val (bit s.cfg.logicalPin).val, ?_⟩
    rw [tickCases_due hl ht]
    simp [tickCases, hs, hb, tickA, startFrame_unmapped (s := clearTimer s) hm hb]

end Sys2Proof.Proofs
end

section
/-!
SUPPORT. Which operations of the assembled block touch the register bank while READY: ENG.tick, at its own latch, and
no other.
-/

namespace Sys2Proof.Machine

/-- A tick writes no latch but that of the block's own pin (44 R153, R155, R156). -/
theorem tickEffect_out_other {s t : State} (h : TickEffect s t) {p : Fin Config.npins} (hp : p ≠ s.cfg.logicalPin) :
    t.out[p] = s.out[p] := by
  have sent : ∀ buf f l, (slotSent buf f l s).out[p] = s.out[p] := by
    intro buf f l
    have hne : s.cfg.logicalPin.val ≠ p.val := fun e => hp (Fin.ext e.symm)
    simp [slotSent, Vector.getElem_set_ne, hne]
  cases h with
  | caseA b rest hm hs hb ht => exact ht ▸ sent _ _ _
  | caseB hs hb ht => exact ht ▸ rfl
  | caseC f f' l hm hs hf hd hn ht => exact ht ▸ sent _ _ _
  | caseD f b rest hm hs hf hd hb ht => exact ht ▸ sent _ _ _
  | caseE f hs hf hd hb ht => exact ht ▸ rfl

/-- From `s` the operation `i` changed no register, no latch and no trace, and then gave its answer, which ended in `t`. -/
def OnlyAnswers (i : Instr) (s t : State) : Prop :=
  ∃ u st res, t = record (.resp i st res) u ∧ u.fsel = s.fsel ∧ u.out = s.out ∧ u.trace = s.trace

/-- 20 R73, R78: while READY every operation of the assembled block but ENG.tick leaves the register bank alone. -/
theorem onlyAnswers_of_effect {i : Instr} {s t : State} (hl : s.life = .ready) (hi : i.assembled = true)
    (ht : i ≠ .engTick) (he : Effect i s t) : OnlyAnswers i s t := by
  have armed : ∀ (u : State) st res, u.fsel = s.fsel → u.out = s.out → u.trace = s.trace →
      OnlyAnswers i s (record (.resp i st res) (ENG.arm u)) := by
    intro u st res hfsel hout htrace
    obtain ⟨-, -, -, -, -, hf, ho, -, -, -, htr⟩ := arm_frame u
    exact ⟨_, st, res, rfl, hf.trans hfsel, ho.trans hout, htr.trans htrace⟩
  cases i with
  | engTick => exact absurd rfl ht
  | sysInit => obtain ⟨hnot, -⟩ := he; exact absurd hl hnot
  | engArm => obtain ⟨-, rfl⟩ := he; exact armed s _ _ rfl rfl rfl
  | engCancel => obtain ⟨-, rfl⟩ := he; exact ⟨_, _, _, rfl, rfl, rfl, rfl⟩
  | mbEnqueue => obtain ⟨-, ⟨-, rfl⟩ | ⟨-, -, rfl⟩ | ⟨-, -, rfl⟩⟩ := he <;> exact ⟨_, _, _, rfl, rfl, rfl, rfl⟩
  | mbConsume => obtain ⟨-, rfl⟩ := he; exact ⟨_, _, _, rfl, rfl, rfl, rfl⟩
  | mbIsEmpty => obtain ⟨-, rfl⟩ := he; exact ⟨_, _, _, rfl, rfl, rfl, rfl⟩
  | sysTeardown => obtain ⟨-, rfl⟩ := he; exact ⟨_, _, _, rfl, rfl, rfl, rfl⟩
  | devOpen => obtain ⟨-, rfl⟩ := he; exact ⟨_, _, _, rfl, rfl, rfl, rfl⟩
  | devWrite =>
    obtain ⟨-, -, ⟨-, rfl⟩ | ⟨-, -, rfl⟩ | ⟨-, -, rfl⟩⟩ := he
    · exact ⟨_, _, _, rfl, rfl, rfl, rfl⟩
    · exact ⟨_, _, _, rfl, rfl, rfl, rfl⟩
    · exact armed _ _ _ rfl rfl rfl
  | devRead => obtain ⟨-, rfl | rfl⟩ := he <;> exact ⟨_, _, _, rfl, rfl, rfl, rfl⟩
  | devClose => obtain ⟨-, rfl⟩ := he; exact ⟨_, _, _, rfl, rfl, rfl, rfl⟩
  | _ => simp [Instr.assembled, Instr.format] at hi

end Sys2Proof.Machine

namespace Sys2Proof.Proofs
open Sys2Proof Sys2Proof.Machine

/-- Settles O57: a tick writes its own latch at most, and every other operation only records its answer. -/
theorem onlyTheTickTouchesThePin : Obligations.OnlyTheTickTouchesThePin := by
  intro i s t hl hi hex
  have he := exec_effect hex
  by_cases ht : i = .engTick
  · subst ht
    obtain ⟨-, -, he⟩ := he
    obtain ⟨-, -, -, -, -, hfsel, -⟩ := tickEffect_frame he
    exact ⟨hfsel, fun p hp => tickEffect_out_other he hp, fun hne => absurd rfl hne⟩
  · obtain ⟨u, st, res, rfl, hfsel, hout, htrace⟩ := onlyAnswers_of_effect hl hi ht he
    refine ⟨hfsel, fun p _ => by simp [hout], fun _ => ⟨hout, [⟨u.now, .resp i st res⟩], by simp [htrace], ?_⟩⟩
    simp [TraceEvent.isAccess]

end Sys2Proof.Proofs
end

section
/-! SUPPORT. The fetch of an issued command that is refused, and the state in which a fetched one runs. -/

namespace Sys2Proof.Machine

theorem fetch_of_wrong_context {ctx : Context} {cmd : Command} {i : Instr} (hc : decode cmd = .ok i)
    (hx : ctx ∉ i.contexts) : fetch ctx cmd = .error .wrongContext := by
  simp [fetch, hc, hx]

theorem fetch_of_undecodable {ctx : Context} {cmd : Command} {e : DecodeError} (hc : decode cmd = .error e) :
    fetch ctx cmd = .error (.undecodable e) := by
  simp [fetch, hc]

/-- For any operation but ENG.tick the command is taken from the inbox and nothing else happens (30 R105). -/
theorem issued_of_ne_engTick {i : Instr} (h : i ≠ .engTick) (rest : List Event) (s : State) :
    issued i rest s = { s with inbox := rest } := by
  cases i with
  | engTick => exact absurd rfl h
  | _ => rfl

/-- For ENG.tick time has passed to the due time (30 R105). -/
theorem issued_engTick_due {s : State} {due : Time} (ht : s.timer = some due) (hn : s.now ≤ due) (rest : List Event) :
    issued .engTick rest s = { s with inbox := rest, now := due } :=
  toDue_due (s := { s with inbox := rest }) ht hn

end Sys2Proof.Machine

namespace Sys2Proof.Proofs
open Sys2Proof Sys2Proof.Machine

/-- Settles O4: the three outcomes of the fetch are the three cases of the statement. -/
theorem stepRunsTheDecodedOperation : Obligations.StepRunsTheDecodedOperation := by
  intro s ctx cmd rest hi
  refine ⟨fun i hc hx => ⟨?_, fun hne => ?_, ?_⟩, fun i hc hx => ?_, fun e hc => ?_⟩
  · exact step_of_call_fetched hi (fetch_of_decode hc hx)
  · exact issued_of_ne_engTick hne rest s
  · rintro due rfl ht hn
    exact issued_engTick_due ht hn rest
  · exact step_of_call_rejected hi (fetch_of_wrong_context hc hx)
  · exact step_of_call_rejected hi (fetch_of_undecodable hc)

end Sys2Proof.Proofs
end

section
/-!
SUPPORT for the encoding statements: the selector table (30 R91) is a one-to-one table of selectors and operations, and
the builder of an operation keeps every operand (30 R92).
-/

namespace Sys2Proof

/-- No two rows of the table name the same operation (30 R91). -/
theorem selectorTable_opcodes_nodup : (selectorTable.map Prod.snd).Nodup := by decide

/-- A selector's operation is the one of its row: no row is shadowed by a row above it. -/
theorem opcodeOf_eq_some_iff {b : Byte} {op : Opcode} : opcodeOf b = some op ↔ (b, op) ∈ selectorTable := by
  have rows : ∀ row ∈ selectorTable, opcodeOf row.1 = some row.2 := by decide
  refine ⟨fun h => ?_, rows _⟩
  obtain ⟨⟨b', op'⟩, hfind, rfl⟩ := Option.map_eq_some_iff.mp h
  obtain rfl : b' = b := by simpa using List.find?_some hfind
  exact List.mem_of_find?_eq_some hfind

theorem opcodeOf_eq_none {b : Byte} (h : b ∉ selectorTable.map Prod.fst) : opcodeOf b = none :=
  Option.eq_none_iff_forall_ne_some.mpr fun _ hop => h (List.mem_map_of_mem (opcodeOf_eq_some_iff.mp hop))

/-- An operation has one selector (30 R91). -/
theorem selector_unique {b b' : Byte} {op : Opcode} (h : opcodeOf b = some op) (h' : opcodeOf b' = some op) : b = b' :=
  congrArg Prod.fst (List.inj_on_of_nodup_map selectorTable_opcodes_nodup (opcodeOf_eq_some_iff.mp h)
    (opcodeOf_eq_some_iff.mp h') rfl)

/-- What is built is an operation of the opcode it was built for, with exactly the operands it was built from: each arm
of `build` that answers is read off. -/
theorem build_eq_some {op : Opcode} {operands : List Operand} {i : Instr} (h : build op operands = some i) :
    opcodeOf i.selector = some op ∧ operands = i.operands := by
  revert h
  fun_cases build op operands <;> rintro ⟨⟩ <;> exact ⟨rfl, rfl⟩

theorem decode_eq_ok_iff {c : Command} {i : Instr} :
    decode c = .ok i ↔ ∃ op, opcodeOf c.selector = some op ∧ build op c.operands = some i := by
  unfold decode
  cases opcodeOf c.selector with
  | none => simp
  | some op => cases h : build op c.operands <;> simp [h]

theorem decode_unassigned {b : Byte} (h : opcodeOf b = none) (operands : List Operand) :
    decode ⟨b, operands⟩ = .error (.unassignedSelector b) := by
  simp [decode, h]

/-- Only SYS.init has more than one form: one for each choice of operands left out (46 R196). -/
theorem decode_encode (i : Instr) : decode (encode i) = .ok i := by
  cases i with
  | sysInit pin baud => cases pin <;> cases baud <;> rfl
  | _ => rfl

theorem eq_encode_of_decode {c : Command} {i : Instr} (h : decode c = .ok i) : c = encode i := by
  obtain ⟨op, hop, hbuild⟩ := decode_eq_ok_iff.mp h
  obtain ⟨hsel, hops⟩ := build_eq_some hbuild
  rw [encode, ← selector_unique hop hsel, ← hops]

theorem readsAs_encode (i : Instr) : ReadsAs i.selector i.operands i i.format := ⟨decode_encode i, rfl⟩

end Sys2Proof

namespace Sys2Proof.Proofs
open Sys2Proof Sys2Proof.Machine

/-- Settles O2: a decoded command has its operation's one selector and, arm by arm of the builder, its operands. -/
theorem decodeInvertsEncode : Obligations.DecodeInvertsEncode := by
  intro c i
  exact ⟨eq_encode_of_decode, fun h => h ▸ decode_encode i⟩

/-- Settles O1: each row is the encoding of its operation, and a selector that is in no row names none. -/
theorem selectorTableDecodes : Obligations.SelectorTableDecodes := by
  refine ⟨fun r off code => readsAs_encode (.rbSetFunction r off code), fun b k => readsAs_encode (.rbSetBit b k),
    fun b k => readsAs_encode (.rbClearBit b k), fun p => readsAs_encode (.pdConfigureAsOutput p),
    fun p h => readsAs_encode (.pdWriteLevel p h), fun b => readsAs_encode (.encFresh b),
    fun f => readsAs_encode (.encNextBit f), readsAs_encode .engArm, readsAs_encode .engCancel,
    readsAs_encode .engTick, fun d => readsAs_encode (.timerSchedule d), readsAs_encode .timerDeschedule,
    fun bs => readsAs_encode (.mbEnqueue bs), readsAs_encode .mbConsume, readsAs_encode .mbIsEmpty,
    readsAs_encode .mbDequeue, fun p b => readsAs_encode (.sysInit (some p) (some b)), readsAs_encode .sysTeardown,
    readsAs_encode .devOpen, fun d n => readsAs_encode (.devWrite d n), fun c ok => readsAs_encode (.devRead c ok),
    readsAs_encode .devClose, fun b hb => decode_unassigned (opcodeOf_eq_none fun hmem => hb ?_)⟩
  exact List.mem_map_of_mem (f := BitVec.toNat) hmem

/-- Settles O3: each command is the encoding of the operation it is said to be. -/
theorem sampleWordsDecode : Obligations.SampleWordsDecode :=
  ⟨decode_encode (.rbSetFunction 0 12 1), decode_encode (.pdWriteLevel 4 true),
    decode_encode (.encNextBit ⟨0xB2#8, 1, false⟩), decode_encode .engTick, decode_encode (.mbEnqueue [0xB2#8]),
    decode_encode (.sysInit (some 4) (some 4800)), decode_encode (.sysInit none none),
    decode_encode (.devRead 64 true)⟩

end Sys2Proof.Proofs
end

section
/-!
SUPPORT for the rendering of a length: `dec` as a recursion on the number divided by ten (30 R101), and from it the
digits, their value and their number.
-/

namespace Sys2Proof.Machine

/-- The ASCII digit of the units of `n` (30 R101). -/
def unitsDigit (n : Nat) : Byte := BitVec.ofNat 8 (0x30 + n % 10)

theorem unitsDigit_toNat (n : Nat) : (unitsDigit n).toNat = 0x30 + n % 10 := by
  rw [unitsDigit, BitVec.toNat_ofNat]
  omega

/-- Any fuel above the number is enough, and the digits go in front of those already rendered. -/
theorem decFrom_eq_dec_append {fuel n : Nat} (h : n < fuel) (acc : List Byte) : decFrom fuel n acc = dec n ++ acc := by
  induction fuel using Nat.strong_induction_on generalizing n acc with
  | _ fuel ih =>
    obtain ⟨k, rfl⟩ : ∃ k, fuel = k + 1 := ⟨fuel - 1, by omega⟩
    simp only [dec, decFrom]
    split
    · rfl
    · rw [ih k (by omega) (by omega), ih n h (by omega), List.append_assoc, List.singleton_append]

theorem dec_of_lt_ten {n : Nat} (h : n < 10) : dec n = [unitsDigit n] := by
  simp [dec, decFrom, h, unitsDigit]

theorem dec_of_ten_le {n : Nat} (h : 10 ≤ n) : dec n = dec (n / 10) ++ [unitsDigit n] := by
  rw [dec, decFrom, if_neg (by omega), decFrom_eq_dec_append (by omega)]
  rfl

/-- Induction along the digits of a number, from its most significant one. -/
theorem decimal_induction {P : Nat → Prop} (digit : ∀ n, n < 10 → P n) (more : ∀ n, 10 ≤ n → P (n / 10) → P n)
    (n : Nat) : P n := by
  induction n using Nat.strong_induction_on with
  | _ n ih =>
    by_cases h : n < 10
    · exact digit n h
    · exact more n (by omega) (ih _ (by omega))

theorem dec_ne_nil (n : Nat) : dec n ≠ [] := by
  by_cases h : n < 10
  · simp [dec_of_lt_ten h]
  · simp [dec_of_ten_le (Nat.le_of_not_lt h)]

theorem unitsDigit_bounds (n : Nat) : 0x30 ≤ (unitsDigit n).toNat ∧ (unitsDigit n).toNat ≤ 0x39 := by
  rw [unitsDigit_toNat]
  omega

theorem dec_digit_bounds {n : Nat} {d : Byte} (hd : d ∈ dec n) : 0x30 ≤ d.toNat ∧ d.toNat ≤ 0x39 := by
  induction n using decimal_induction with
  | digit n h =>
    rw [dec_of_lt_ten h, List.mem_singleton] at hd
    exact hd ▸ unitsDigit_bounds n
  | more n h ih =>
    rw [dec_of_ten_le h, List.mem_append, List.mem_singleton] at hd
    obtain hd | rfl := hd
    · exact ih hd
    · exact unitsDigit_bounds n

theorem decimalValue_append_unitsDigit (ds : List Byte) (n : Nat) :
    decimalValue (ds ++ [unitsDigit n]) = 10 * decimalValue ds + n % 10 := by
  simp [decimalValue, unitsDigit_toNat]

theorem decimalValue_dec (n : Nat) : decimalValue (dec n) = n := by
  induction n using decimal_induction with
  | digit n h =>
    rw [dec_of_lt_ten h, ← List.nil_append [_], decimalValue_append_unitsDigit]
    simpa [decimalValue] using Nat.mod_eq_of_lt h
  | more n h ih =>
    rw [dec_of_ten_le h, decimalValue_append_unitsDigit, ih, Nat.div_add_mod]

/-- No leading zero: the first digit of a number above 9 is that of the number divided by ten, which is not 0. -/
theorem dec_head?_ne_zero {n : Nat} (hn : n ≠ 0) : (dec n).head? ≠ some 0x30#8 := by
  induction n using decimal_induction with
  | digit n h =>
    intro hz
    rw [dec_of_lt_ten h, List.head?_singleton, Option.some_inj] at hz
    have hval : 0x30 = 0x30 + n % 10 := by simp [← unitsDigit_toNat, hz]
    omega
  | more n h ih =>
    rw [dec_of_ten_le h, List.head?_append_of_ne_nil _ (dec_ne_nil _)]
    exact ih (by omega)

theorem dec_length_of_lt_ten {n : Nat} (h : n < 10) : (dec n).length = 1 := by
  rw [dec_of_lt_ten h, List.length_singleton]

theorem dec_length_of_ten_le {n : Nat} (h : 10 ≤ n) : (dec n).length = (dec (n / 10)).length + 1 := by
  rw [dec_of_ten_le h, List.length_append, List.length_singleton]

theorem dec_length_two {n : Nat} (h : 10 ≤ n) (h' : n ≤ 99) : (dec n).length = 2 := by
  rw [dec_length_of_ten_le h, dec_length_of_lt_ten (by omega)]

theorem dec_length_three {n : Nat} (h : 100 ≤ n) (h' : n ≤ 999) : (dec n).length = 3 := by
  rw [dec_length_of_ten_le (by omega), dec_length_two (by omega) (by omega)]

/-- 243 bytes of data with their three digits and the ten fixed bytes fill the buffer of 256 (30 R101). From 247 bytes on
the number of digits no longer matters. -/
theorem messageText_fits_iff (data : List Byte) :
    (messageText data data.length).length ≤ 256 ↔ data.length ≤ 243 := by
  rw [messageText_length]
  by_cases h1 : data.length < 10
  · rw [dec_length_of_lt_ten h1]
    omega
  by_cases h2 : data.length ≤ 99
  · rw [dec_length_two (by omega) h2]
    omega
  by_cases h3 : data.length ≤ 999
  · rw [dec_length_three (by omega) h3]
    omega
  · omega

end Sys2Proof.Machine

namespace Sys2Proof.Proofs
open Sys2Proof Sys2Proof.Machine

/-- Settles O50: by induction along the digits; the lengths and the bound of 243 follow from the recursion of `dec`. -/
theorem decimalRendering : Obligations.DecimalRendering :=
  ⟨fun n => ⟨dec_ne_nil n, fun _ => dec_digit_bounds, decimalValue_dec n, dec_head?_ne_zero⟩, dec_of_lt_ten (by decide),
    fun _ h => dec_length_of_lt_ten (Nat.lt_succ_of_le h), fun _ => dec_length_two, fun _ => dec_length_three,
    messageText_fits_iff⟩

end Sys2Proof.Proofs
end

section
/-!
SUPPORT for the register bank statements: what an issued RB operation answers when its operands are out of range, when
the bank is unmapped and when it is mapped (41 R120 to R122). The two strobe operations are one, by the level they drive.
-/

namespace Sys2Proof.Machine

theorem offsetOf_none {v : Int} (h : ¬(0 ≤ v ∧ v ≤ 27 ∧ v % 3 = 0)) : offsetOf v = none := if_neg h

theorem codeOf_none {v : Int} (h : ¬(0 ≤ v ∧ v ≤ 7)) : codeOf v = none := if_neg h

/-! RB.setFunction (41 R120). -/

theorem exec_rbSetFunction_out_of_range {s : State} (hl : s.life = .ready) {r off code : Int}
    (h : ¬(0 ≤ r ∧ r < 6 ∧ 0 ≤ off ∧ off ≤ 27 ∧ off % 3 = 0 ∧ 0 ≤ code ∧ code ≤ 7)) :
    exec (.rbSetFunction r off code) s = .refused .operandOutOfRange := by
  simp only [exec, execRbSetFunction, whenReady_ready hl]
  by_cases hr : 0 ≤ r ∧ r < 6
  · by_cases hoff : 0 ≤ off ∧ off ≤ 27 ∧ off % 3 = 0
    · have hcode : codeOf code = none := codeOf_none fun hc => h (by omega)
      simp [hcode]
    · simp [offsetOf_none hoff]
  · have hfin : finOf Config.nfsel r = none := finOf_none hr
    simp [hfin]

theorem exec_rbSetFunction {s : State} (hl : s.life = .ready) (r : Fin Config.nfsel) (k : Fin 10) (code : BitVec 3) :
    exec (.rbSetFunction (r.val : Nat) (3 * k.val : Nat) (code.toNat : Nat)) s =
      andThen (RB.setFunction r (3 * k.val) code s)
        (reply (.rbSetFunction (r.val : Nat) (3 * k.val : Nat) (code.toNat : Nat)) .ok .none) := by
  simp only [exec, execRbSetFunction, whenReady_ready hl, finOf_val, offsetOf_val, codeOf_val]

theorem fieldChanged_insertField (old : Word) (off : Nat) (code : BitVec 3) :
    FieldChanged old (insertField old off code) off code :=
  fun j hj => insertField_getLsbD old off code j hj

/-! RB.setBit and RB.clearBit (41 R121, R122). -/

/-- The operation that drives one bit of a bank to a level. -/
def strobeOp : Level → Int → Int → Instr
  | .high => .rbSetBit
  | .low => .rbClearBit

/-- The body of that operation. -/
def strobeBody : Level → Fin Config.nbank → Fin 32 → State → Out
  | .high => RB.setBit
  | .low => RB.clearBit

theorem strobeBody_unmapped {s : State} (hm : s.mapped = false) (l : Level) (b : Fin Config.nbank) (k : Fin 32) :
    strobeBody l b k s = .fault (.unmapped (strobeReg b l) (strobeOp l (b.val : Nat) (k.val : Nat))) := by
  cases l with
  | high => exact setBit_unmapped hm b k
  | low => exact clearBit_unmapped hm b k

theorem strobeBody_mapped {s : State} (hm : s.mapped = true) (l : Level) (b : Fin Config.nbank) (k : Fin 32) :
    strobeBody l b k s = .next (bitWritten b k l s) := by
  cases l with
  | high => exact setBit_mapped hm b k
  | low => exact clearBit_mapped hm b k

theorem exec_strobeOp {s : State} (hl : s.life = .ready) (l : Level) (b : Fin Config.nbank) (k : Fin 32) :
    exec (strobeOp l (b.val : Nat) (k.val : Nat)) s =
      andThen (strobeBody l b k s) (reply (strobeOp l (b.val : Nat) (k.val : Nat)) .ok .none) := by
  cases l with
  | high => simp only [strobeOp, strobeBody, exec, execRbSetBit, whenReady_ready hl, finOf_val]
  | low => simp only [strobeOp, strobeBody, exec, execRbClearBit, whenReady_ready hl, finOf_val]

theorem exec_strobeOp_out_of_range {s : State} (hl : s.life = .ready) (l : Level) {b k : Int}
    (h : ¬(0 ≤ b ∧ b < 2 ∧ 0 ≤ k ∧ k < 32)) : exec (strobeOp l b k) s = .refused .operandOutOfRange := by
  have outside : finOf Config.nbank b = none ∨ finOf 32 k = none := by
    by_cases hb : 0 ≤ b ∧ b < 2
    · exact .inr (finOf_none fun hk => h ⟨hb.1, hb.2, hk⟩)
    · exact .inl (finOf_none hb)
  cases l with
  | high =>
    simp only [strobeOp, exec, execRbSetBit, whenReady_ready hl]
    rcases outside with hnone | hnone <;> simp [hnone]
  | low =>
    simp only [strobeOp, exec, execRbClearBit, whenReady_ready hl]
    rcases outside with hnone | hnone <;> simp [hnone]

/-- On an unmapped bank the operation faults, with its strobe register and its own name (60 R217). -/
theorem exec_strobeOp_unmapped {s : State} (hl : s.life = .ready) (hm : s.mapped = false) (l : Level)
    (b : Fin Config.nbank) (k : Fin 32) :
    exec (strobeOp l (b.val : Nat) (k.val : Nat)) s =
      .fault (.unmapped (strobeReg b l) (strobeOp l (b.val : Nat) (k.val : Nat))) := by
  rw [exec_strobeOp hl, strobeBody_unmapped hm, andThen_fault]

theorem answers_strobeOp {s : State} (hl : s.life = .ready) (hm : s.mapped = true) (l : Level)
    (b : Fin Config.nbank) (k : Fin 32) :
    Answers (strobeOp l (b.val : Nat) (k.val : Nat)) s .ok .none (bitWritten b k l s) := by
  rw [Answers, exec_strobeOp hl, strobeBody_mapped hm, andThen_next, reply]

end Sys2Proof.Machine

namespace Sys2Proof.Proofs
open Sys2Proof Sys2Proof.Machine

/-- Settles O13: the word written is `insertField`, which differs from the word read in the three bits of the field. -/
theorem setFunctionWritesOneField : Obligations.SetFunctionWritesOneField := by
  refine ⟨⟨rfl, fun _ _ _ => rfl⟩, fun s r off code hl h => exec_rbSetFunction_out_of_range hl h, ?_⟩
  intro s r k code hl
  refine ⟨fun hm => ?_, fun hm => ⟨_, fieldChanged_insertField s.fsel[r] (3 * k.val) code, ?_⟩⟩
  · rw [exec_rbSetFunction hl, setFunction_unmapped hm, andThen_fault]
  · rw [Answers, exec_rbSetFunction hl, setFunction_mapped hm, andThen_next, reply, fieldWritten]

/-- Settles O14: the word `1 << k` written to SET moves the latch of the one pin of its bit. -/
theorem setBitRaisesOnePin : Obligations.SetBitRaisesOnePin := by
  refine ⟨⟨rfl, fun _ _ => rfl⟩, fun s b k hl h => exec_strobeOp_out_of_range hl .high h, fun s b k hl => ⟨?_, ?_⟩⟩
  · exact fun hm => exec_strobeOp_unmapped hl hm .high b k
  · exact fun hm => ⟨_, fun p => strobe_single b k .high s.out p p.isLt, answers_strobeOp hl hm .high b k⟩

/-- Settles O15: the word `1 << k` written to CLR moves the latch of the one pin of its bit. -/
theorem clearBitLowersOnePin : Obligations.ClearBitLowersOnePin := by
  refine ⟨⟨rfl, fun _ _ => rfl⟩, fun s b k hl h => exec_strobeOp_out_of_range hl .low h, fun s b k hl => ⟨?_, ?_⟩⟩
  · exact fun hm => exec_strobeOp_unmapped hl hm .low b k
  · exact fun hm => ⟨_, fun p => strobe_single b k .low s.out p p.isLt, answers_strobeOp hl hm .low b k⟩

end Sys2Proof.Proofs
end

section
/-!
SUPPORT for the pin driver statements: what an issued PD operation answers when its pin is out of range, and the register
bank operation it makes when the pin is one of the 54 (42 R130, R131).
-/

namespace Sys2Proof.Machine

/-! PD.configureAsOutput (42 R130). -/

theorem exec_pdConfigureAsOutput_out_of_range {s : State} (hl : s.life = .ready) {p : Int} (h : ¬(0 ≤ p ∧ p < 54)) :
    exec (.pdConfigureAsOutput p) s = .refused .operandOutOfRange := by
  have hfin : finOf Config.npins p = none := finOf_none h
  simp only [exec, execPdConfigureAsOutput, whenReady_ready hl, hfin]

theorem exec_pdConfigureAsOutput {s : State} (hl : s.life = .ready) (p : Fin Config.npins) :
    exec (.pdConfigureAsOutput (p.val : Nat)) s =
      andThen (RB.setFunction (fselIndex p) (fselOffset p) Config.funcOutput s)
        (reply (.pdConfigureAsOutput (p.val : Nat)) .ok .none) := by
  simp only [exec, execPdConfigureAsOutput, whenReady_ready hl, finOf_val, PD.configureAsOutput]

/-! PD.writeLevel (42 R131): the strobe operation of the pin's bank and bit. -/

theorem exec_pdWriteLevel_out_of_range {s : State} (hl : s.life = .ready) {p : Int} (high : Bool)
    (h : ¬(0 ≤ p ∧ p < 54)) : exec (.pdWriteLevel p high) s = .refused .operandOutOfRange := by
  have hfin : finOf Config.npins p = none := finOf_none h
  simp only [exec, execPdWriteLevel, whenReady_ready hl, hfin]

theorem exec_pdWriteLevel {s : State} (hl : s.life = .ready) (p : Fin Config.npins) (high : Bool) :
    exec (.pdWriteLevel (p.val : Nat) high) s =
      andThen (PD.writeLevel p high s) (reply (.pdWriteLevel (p.val : Nat) high) .ok .none) := by
  simp only [exec, execPdWriteLevel, whenReady_ready hl, finOf_val]

theorem writeLevel_eq_strobeBody (p : Fin Config.npins) (high : Bool) (s : State) :
    PD.writeLevel p high s = strobeBody (levelOf high) (bank p) (bit p) s := by
  cases high <;> rfl

/-- On an unmapped bank the fault names the strobe operation that made the access (log entry 15). -/
theorem exec_pdWriteLevel_unmapped {s : State} (hl : s.life = .ready) (hm : s.mapped = false) (p : Fin Config.npins)
    (high : Bool) :
    exec (.pdWriteLevel (p.val : Nat) high) s = .fault (.unmapped (strobeReg (bank p) (levelOf high))
      (strobeOp (levelOf high) ((bank p).val : Nat) ((bit p).val : Nat))) := by
  rw [exec_pdWriteLevel hl, writeLevel_eq_strobeBody, strobeBody_unmapped hm, andThen_fault]

theorem answers_pdWriteLevel {s : State} (hl : s.life = .ready) (hm : s.mapped = true) (p : Fin Config.npins)
    (high : Bool) : Answers (.pdWriteLevel (p.val : Nat) high) s .ok .none (pinDriven p (levelOf high) s) := by
  rw [Answers, exec_pdWriteLevel hl, writeLevel_mapped hm, andThen_next, reply]

end Sys2Proof.Machine

namespace Sys2Proof.Proofs
open Sys2Proof Sys2Proof.Machine

/-- Settles O19: the operation is RB.setFunction on the pin's register and field, whose written word is `insertField`. -/
theorem configureAsOutputWritesThePinsField : Obligations.ConfigureAsOutputWritesThePinsField := by
  refine ⟨⟨rfl, fun _ => rfl⟩, fun s p hl h => exec_pdConfigureAsOutput_out_of_range hl h, ?_⟩
  intro s p r hl hr
  obtain rfl : r = fselIndex p := Fin.ext hr
  refine ⟨fun hm => ?_, fun hm => ⟨_, fieldChanged_insertField s.fsel[fselIndex p] (fselOffset p) Config.funcOutput, ?_⟩⟩
  · rw [exec_pdConfigureAsOutput hl, setFunction_unmapped hm, andThen_fault]
    rfl
  · rw [Answers, exec_pdConfigureAsOutput hl, setFunction_mapped hm, andThen_next, reply, fieldWritten]

/-- Settles O20: the operation is the strobe operation of the pin's bank and bit, which moves the latch of that pin. -/
theorem writeLevelDrivesThePin : Obligations.WriteLevelDrivesThePin := by
  refine ⟨⟨rfl, fun _ _ => rfl⟩, fun s p high hl h => exec_pdWriteLevel_out_of_range hl high h, ?_⟩
  intro s p high b hl hb
  obtain rfl : b = bank p := Fin.ext hb
  cases high with
  | true => exact ⟨fun hm => exec_pdWriteLevel_unmapped hl hm p true, fun hm => answers_pdWriteLevel hl hm p true⟩
  | false => exact ⟨fun hm => exec_pdWriteLevel_unmapped hl hm p false, fun hm => answers_pdWriteLevel hl hm p false⟩

end Sys2Proof.Proofs
end

section
/-!
SUPPORT for the frame encoder statements: what an issued ENC.nextBit answers, the two ways the spec writes the level of
a slot, and the slots that `n` applications of ENC.nextBit emit (43 R141, R143).
-/

namespace Sys2Proof.Machine

/-- The bit of a byte as the spec's `(b >> k) & 1` (43 R141). -/
theorem shiftRight_and_one_eq_one_iff (b : Byte) (k : Nat) : (b >>> k) &&& 1#8 = 1#8 ↔ b.getLsbD k = true := by
  cases h : b.getLsbD k <;> simp [BitVec.and_one_eq_setWidth_ofBool_getLsbD, h]

theorem nextBit_done {f : TxFrame} (hd : f.done = true) : ENC.nextBit f = .error .frameDone := by
  simp [ENC.nextBit, hd]

/-- ENC.nextBit on the frame of `b` that stands before slot `k`, for a start or data slot (43 R141). -/
theorem nextBit_slot (b : Byte) {k : Nat} (hk : k ≤ 8) :
    ENC.nextBit ⟨b, k - 1, false⟩ = .ok (slotLevel b k, ⟨b, k, false⟩) := by
  have hne : (k : Int) - 1 ≠ 8 := by omega
  have hlo : -1 ≤ (k : Int) - 1 := by omega
  have hhi : (k : Int) - 1 ≤ 8 := by omega
  rw [nextBit_legal rfl hlo hhi]
  simp [hne]

/-- ENC.nextBit on the frame of `b` that stands at the stop bit (43 R141). -/
theorem nextBit_stop (b : Byte) : ENC.nextBit ⟨b, 8, false⟩ = .ok (.high, ⟨b, 8, true⟩) := rfl

theorem answers_encNextBit {s : State} (hl : s.life = .ready) {f f' : TxFrame} {l : Level}
    (h : ENC.nextBit f = .ok (l, f')) : Answers (.encNextBit f) s .ok (.levelFrame l f') s := by
  simp only [Answers, exec, execEncNextBit, whenReady_ready hl, h, reply]

theorem exec_encNextBit_refused {s : State} (hl : s.life = .ready) {f : TxFrame} {r : Refusal}
    (h : ENC.nextBit f = .error r) : exec (.encNextBit f) s = .refused r := by
  simp only [exec, execEncNextBit, whenReady_ready hl, h]

/-- The level of a data slot is the bit of the byte (30 R97). -/
theorem slotLevel_data (b : Byte) {k : Nat} (hk : k ≤ 7) : slotLevel b (k + 1) = levelOf (b.getLsbD k) := by
  simp [slotLevel, Nat.lt_succ_of_le hk]

/-- The level of slot `k` is bit `k` of the frame word: the start bit below the byte and the stop bit above it (30 R97,
R99). -/
theorem slotLevel_eq_frameWord_bit (b : Byte) {k : Nat} (hk : k < 10) :
    slotLevel b k = levelOf ((frameWord b).getLsbD k) := by
  cases k with
  | zero => simp [slotLevel, frameWord, levelOf]
  | succ j =>
    by_cases hj : j = 8
    · subst hj
      simp [slotLevel, frameWord, levelOf]
    · have hdata : j ≤ 7 := by omega
      have hstop : (0x200#10).getLsbD (j + 1) = false := by interval_cases j <;> rfl
      rw [slotLevel_data b hdata, frameWord, BitVec.getLsbD_or, hstop]
      simp [hk]

theorem frameLevels_getElem? (b : Byte) {k : Nat} (hk : k < 10) : (frameLevels b)[k]? = some (slotLevel b k) := by
  simp [frameLevels, hk]

/-! Repeated application of ENC.nextBit. -/

theorem emit_succ {f f' : TxFrame} {l : Level} (h : ENC.nextBit f = .ok (l, f')) (n : Nat) :
    emit (n + 1) f = (emit n f').map (Prod.map (l :: ·) id) := by
  simp only [emit, h]
  cases emit n f' <;> rfl

theorem emit_succ_refused {f : TxFrame} {r : Refusal} (h : ENC.nextBit f = .error r) (n : Nat) :
    emit (n + 1) f = none := by
  simp only [emit, h]

/-- `n` applications on the frame of `b` that stands before slot `k` emit `n` consecutive slots, as long as the stop bit
is not among them; `r` more applications go on from there. -/
theorem emit_slots (b : Byte) (r : Nat) {n k : Nat} (h : k + n ≤ 9) :
    emit (n + r) ⟨b, k - 1, false⟩ =
      (emit r ⟨b, (k + n : Nat) - 1, false⟩).map (Prod.map ((List.range' k n).map (slotLevel b) ++ ·) id) := by
  induction n generalizing k with
  | zero =>
    rw [Nat.zero_add]
    exact Option.map_id_apply.symm
  | succ n ih =>
    have hnext : ENC.nextBit ⟨b, k - 1, false⟩ = .ok (slotLevel b k, ⟨b, (k + 1 : Nat) - 1, false⟩) := by
      simpa using nextBit_slot b (k := k) (by omega)
    rw [Nat.add_right_comm, emit_succ hnext, ih (by omega), Option.map_map, Nat.add_right_comm k 1 n,
      Nat.add_assoc k n 1]
    rfl

/-- Up to the stop bit, `k` applications on a fresh frame emit the first `k` slots (43 R143). -/
theorem emit_fresh (b : Byte) {k : Nat} (h : k ≤ 9) :
    emit k (ENC.fresh b) = some ((List.range k).map (slotLevel b), ⟨b, k - 1, false⟩) := by
  simpa [emit, ENC.fresh, List.range_eq_range'] using emit_slots b 0 (n := k) (k := 0) (by omega)

/-- Nine applications bring a fresh frame to its stop bit, and `r` more go on from there. -/
theorem emit_fresh_nine (b : Byte) (r : Nat) :
    emit (9 + r) (ENC.fresh b) =
      (emit r ⟨b, 8, false⟩).map (Prod.map ((List.range 9).map (slotLevel b) ++ ·) id) :=
  emit_slots b r (n := 9) (k := 0) (le_refl 9)

theorem emit_fresh_ten (b : Byte) : emit 10 (ENC.fresh b) = some (frameLevels b, ⟨b, 8, true⟩) := by
  rw [emit_fresh_nine b 1, emit_succ (nextBit_stop b)]
  rfl

/-- The frame is finished after ten applications, so an eleventh is refused (43 R141). -/
theorem emit_fresh_eleven (b : Byte) : emit 11 (ENC.fresh b) = none := by
  rw [emit_fresh_nine b 2, emit_succ (nextBit_stop b), emit_succ_refused (nextBit_done rfl)]
  rfl

end Sys2Proof.Machine

namespace Sys2Proof.Proofs
open Sys2Proof Sys2Proof.Machine

/-- Settles O21: the operation answers with `ENC.fresh` of its byte and leaves the state as it is. -/
theorem freshFrameStandsAtTheStart : Obligations.FreshFrameStandsAtTheStart := by
  refine ⟨fun _ => ⟨rfl, rfl⟩, fun s b hl => ?_⟩
  simp only [Answers, exec, execEncFresh, whenReady_ready hl, reply, ENC.fresh]

/-- Settles O22: each legal position of the frame answers with what `ENC.nextBit` gives there. -/
theorem nextBitEmitsOneSlot : Obligations.NextBitEmitsOneSlot := by
  refine ⟨fun _ => ⟨rfl, rfl⟩, fun s b hl => ⟨?start, ?data, ?stop, ?finished⟩⟩
  case start => exact answers_encNextBit hl (nextBit_slot b (Nat.zero_le 8))
  case data =>
    intro k hk
    have hnext := nextBit_slot b (k := k + 1) (by omega)
    rw [slotLevel_data b hk] at hnext
    simpa [shiftRight_and_one_eq_one_iff, levelOf] using answers_encNextBit hl hnext
  case stop => exact answers_encNextBit hl (nextBit_stop b)
  case finished => exact fun j => exec_encNextBit_refused hl (nextBit_done rfl)

/-- Settles O23: the slots before the stop bit are emitted one after the other, the stop bit finishes the frame, and
each level is a bit of the frame word. -/
theorem tenSlotsMakeAFrame : Obligations.TenSlotsMakeAFrame := by
  refine fun b => ⟨emit_fresh_ten b, fun k hk => ⟨_, ?_, emit_fresh b hk⟩, fun k hk => ?_, emit_fresh_eleven b⟩
  · simp
  · rw [frameLevels_getElem? b hk, slotLevel_eq_frameWord_bit b hk]

end Sys2Proof.Proofs
end

section
/-!
SUPPORT for the engine statements: each effect listed in `TickEffect` is what the tick does in its case, so that the two
sides of `engTick_eq_next_iff` say the whole of ENG.tick (44 R152 to R157); then the ticks that are refused.
-/

namespace Sys2Proof.Machine

/-- The engine's slot on a mapped bank, for the level and the frame that ENC.nextBit gives (44 R153, R155, R156). -/
theorem emitSlot_of_nextBit {s : State} (hm : s.mapped = true) {f f' : TxFrame} {l : Level}
    (hn : ENC.nextBit f = .ok (l, f')) (due : Time) :
    emitSlot due f s =
      .next { s with
        frame := some f'
        out := s.out.set s.cfg.logicalPin l
        timer := some (due + bitPeriod s)
        trace := s.trace ++ pinWrite s.cfg.logicalPin s.now l } := by
  have driven := pinDriven_own l { s with frame := some f' }
  simp only [emitSlot, hn]
  rw [writeLevel_mapped (s := { s with frame := some f' }) hm, levelOf_high, andThen_next, driven]
  rfl

/-- The start bit of the next byte on a mapped bank (44 R153, R156). -/
theorem startFrame_of_cons {s : State} (hm : s.mapped = true) {b : Byte} {rest : List Byte} (hb : s.buf = b :: rest)
    (due : Time) :
    startFrame due s =
      .next { s with
        buf := rest
        frame := some ⟨b, 0, false⟩
        out := s.out.set s.cfg.logicalPin .low
        timer := some (due + bitPeriod s)
        trace := s.trace ++ pinWrite s.cfg.logicalPin s.now .low } := by
  have start_bit : ENC.nextBit (ENC.fresh b) = .ok (.low, ⟨b, 0, false⟩) := rfl
  simp only [startFrame, MB.dequeue, hb]
  exact emitSlot_of_nextBit (s := { s with buf := rest }) hm start_bit due

/-- The converse of `tickCases_next`: each effect is what the tick does in its case. -/
theorem tickCases_of_effect {s t : State} (he : TickEffect s t) : tickCases s.now (clearTimer s) = .next t := by
  cases he with
  | caseA b rest hm hs hb ht =>
    simp [tickCases, tickA, leaveCallback, hs, hb, startFrame_of_cons (s := clearTimer s) hm hb, ht, slotSent, bitPeriod]
  | caseB hs hb ht => simp [tickCases, tickB, leaveCallback, clearTimer, hs, hb, ht]
  | caseC f f' l hm hs hf hd hn ht =>
    simp [tickCases, tickC, leaveCallback, hs, hf, hd, emitSlot_of_nextBit (s := clearTimer s) hm hn, ht, slotSent,
      bitPeriod]
  | caseD f b rest hm hs hf hd hb ht =>
    simp [tickCases, tickD, leaveCallback, hs, hf, hd, hb, startFrame_of_cons (s := clearTimer s) hm hb, ht, slotSent,
      bitPeriod]
  | caseE f hs hf hd hb ht => simp [tickCases, tickE, leaveCallback, clearTimer, hs, hf, hd, hb, ht]

/-- ENG.tick, whole: it answers a next state in a READY block whose callback is due now, by its case, and nowhere else. -/
theorem engTick_eq_next_iff {s t : State} :
    exec .engTick s = .next t ↔ s.life = .ready ∧ s.timer = some s.now ∧ TickEffect s t := by
  refine ⟨engTick_next, fun ⟨hl, ht, he⟩ => ?_⟩
  rw [tickCases_due hl ht, tickCases_of_effect he]

/-- A tick is enabled at its due time only (44 R152). -/
theorem engTick_not_due {s : State} (hl : s.life = .ready) (ht : s.timer ≠ some s.now) :
    exec .engTick s = .refused .tickNotEnabled := by
  simp only [exec, execEngTick, whenReady_ready hl, enterCallback]
  cases hd : s.timer with
  | none => rfl
  | some due =>
    have hne : s.now ≠ due := fun e => ht (e ▸ hd)
    simp only [hne, if_false]

/-- In IDLE a tick has no effect, due or not (44 R158). -/
theorem engTick_idle_refused {s : State} (hl : s.life = .ready) (hs : s.state = .idle) :
    ∃ r, exec .engTick s = .refused r := by
  by_cases ht : s.timer = some s.now
  · exact ⟨.tickInIdle, by simp [tickCases_due hl ht, tickCases, hs]⟩
  · exact ⟨.tickNotEnabled, engTick_not_due hl ht⟩

/-- The level of the slot a legal frame stands before, written out (30 R97). -/
theorem slotLevel_of_bitIndex (b : Byte) {i : Int} (h1 : -1 ≤ i) (h2 : i ≤ 8) :
    slotLevel b (i + 1).toNat =
      if i = -1 then .low else if i = 8 then .high else if b.getLsbD i.toNat then .high else .low := by
  by_cases hstart : i = -1
  · subst hstart; rfl
  by_cases hstop : i = 8
  · subst hstop; rfl
  obtain ⟨k, rfl⟩ : ∃ k : Nat, i = k := ⟨i.toNat, by omega⟩
  rw [if_neg hstart, if_neg hstop]
  exact slotLevel_data b (k := k) (by omega)

/-- The line of an output pin is at the level of its latch (10 R31). -/
theorem line_of_output_latch {s : State} (hf : pinField s = Config.funcOutput) {l : Level}
    (hl : s.out[s.cfg.logicalPin] = l) : line s = .driven l := by
  rw [line_of_output hf, hl]

end Sys2Proof.Machine

namespace Sys2Proof.Proofs
open Sys2Proof Sys2Proof.Machine

/-- Settles O27: the slot and the frame of case C are what ENC.nextBit gives for a legal unfinished frame. -/
theorem tickSendsTheNextSlot : Obligations.TickSendsTheNextSlot := by
  intro s f hl hm ht hs hf hd h1 h2 l
  have hn := nextBit_legal hd h1 h2
  rw [slotLevel_of_bitIndex f.byte h1 h2] at hn
  refine (engTick_eq_next_iff.2 ⟨hl, ht, .caseC f _ l hm hs hf hd hn rfl⟩).trans ?_
  obtain ⟨b, i, d⟩ := f
  obtain rfl : d = false := hd
  by_cases h8 : i = 8
  · simp [slotSent, bitPeriod, hs, h8]
  · simp [slotSent, bitPeriod, hs, h8]

/-- Settles O25: case A of `TickEffect`. -/
theorem tickStartsTheFirstFrame : Obligations.TickStartsTheFirstFrame :=
  fun _ b rest hl hm ht hs hb => engTick_eq_next_iff.2 ⟨hl, ht, .caseA b rest hm hs hb rfl⟩

/-- Settles O26: case B of `TickEffect`. -/
theorem tickWithNothingToSendIdles : Obligations.TickWithNothingToSendIdles :=
  fun _ hl ht hs hb => engTick_eq_next_iff.2 ⟨hl, ht, .caseB hs hb rfl⟩

/-- Settles O28: case D of `TickEffect`, which stays in TRANSMITTING. -/
theorem tickStartsTheNextFrame : Obligations.TickStartsTheNextFrame := by
  intro s f b rest hl hm ht hs hf hd hb
  rw [engTick_eq_next_iff.2 ⟨hl, ht, .caseD f b rest hm hs hf hd hb rfl⟩]
  simp [slotSent, bitPeriod, hs]

/-- Settles O29: case E of `TickEffect`; it moves no latch, and the latch was HIGH because the frame was finished. -/
theorem tickFinishesTheMessage : Obligations.TickFinishesTheMessage := by
  intro s f hl ht hs hf hd hb
  have finished := engTick_eq_next_iff.2 ⟨hl, ht, .caseE f hs hf hd hb rfl⟩
  refine ⟨finished, fun t hex => ?_⟩
  obtain rfl := Host.Outcome.next.inj (finished.symm.trans hex)
  refine ⟨rfl, fun hinv hhigh => ?_⟩
  obtain ⟨-, -, -, -, -, ⟨-, hfield⟩, -⟩ := hinv.readyInv hl
  exact line_of_output_latch hfield (hhigh hl (.inr (by simp [frameDone, hf, hd])))

/-- Settles O24: the two branches of `ENG.arm`. -/
theorem armSchedulesTheFirstCallback : Obligations.ArmSchedulesTheFirstCallback := by
  refine ⟨⟨rfl, rfl, rfl⟩, fun s hl => exec_notReady hl (by simp), fun s hl => ?_⟩
  have answers : Answers .engArm s .ok .none (ENG.arm s) := by
    simp only [Answers, exec, execEngArm, whenReady_ready hl, reply]
  refine ⟨fun hs hb => ?_, fun hno => ?_⟩
  · rwa [ENG.arm, if_pos ⟨hs, hb⟩] at answers
  · rwa [ENG.arm, if_neg fun h => hno.elim (absurd h.1) h.2] at answers

/-- Settles O31: `ENG.cancel` disarms the timer, so that no tick is due, and moves no latch. -/
theorem cancelStopsEverything : Obligations.CancelStopsEverything := by
  refine ⟨⟨rfl, rfl, rfl⟩, fun s hl => exec_notReady hl (by simp), fun s hl => ?_⟩
  have answers : Answers .engCancel s .ok .none (ENG.cancel s) := by
    simp only [Answers, exec, execEngCancel, whenReady_ready hl, reply]
  refine ⟨answers, fun t hex => ?_⟩
  obtain rfl := Host.Outcome.next.inj (answers.symm.trans hex)
  exact ⟨rfl, engTick_not_due hl (by simp)⟩

/-- Settles O33: the due time is checked against `now` before the timer is set. -/
theorem scheduleArmsTheTimer : Obligations.ScheduleArmsTheTimer := by
  refine ⟨fun _ => ⟨rfl, rfl⟩, fun s due hl => ?_⟩
  simp only [Answers, exec, execTimerSchedule, whenReady_ready hl]
  exact ⟨fun h => if_neg (not_lt.2 h), fun h => if_pos h⟩

/-- Settles O34: the answer carries `clearTimer s`, which is `s` itself when no callback is pending. -/
theorem descheduleDisarmsTheTimer : Obligations.DescheduleDisarmsTheTimer := by
  refine ⟨⟨rfl, rfl⟩, fun s hl => ?_⟩
  have answers : Answers .timerDeschedule s .ok .none (clearTimer s) := by
    simp only [Answers, exec, execTimerDeschedule, whenReady_ready hl, reply]
  refine ⟨answers, fun ht => ?_⟩
  have unchanged : clearTimer s = s := by rw [clearTimer, ← ht]
  rwa [unchanged] at answers

end Sys2Proof.Proofs
end

section
/-!
SUPPORT for the sending of a message: `pendingLevels`, the slots a block has still to send. Where the invariant holds, a
tick sends the first of them, or ends the message when there is none.
-/

namespace Sys2Proof
open Sys2Proof.Machine

/-- The slots of a frame that ENC.nextBit has not emitted yet (43 R141, R143). -/
def frameRest (f : TxFrame) : List Level := if f.done then [] else (frameLevels f.byte).drop (f.bitIndex + 1).toNat

/-- The slots the block has still to send: the rest of its frame, then the frames of its buffer. -/
def pendingLevels (s : State) : List Level := s.frame.elim [] frameRest ++ messageLevels s.buf

@[simp] theorem frameLevels_length (b : Byte) : (frameLevels b).length = 10 := by simp [frameLevels]

@[simp] theorem messageLevels_length (bs : List Byte) : (messageLevels bs).length = 10 * bs.length := by
  simp [messageLevels, Nat.mul_comm]

@[simp] theorem frameRest_done {f : TxFrame} (hd : f.done = true) : frameRest f = [] := if_pos hd

theorem frameRest_unfinished {f : TxFrame} (hd : f.done = false) :
    frameRest f = (frameLevels f.byte).drop (f.bitIndex + 1).toNat := by
  simp [frameRest, hd]

/-- Once the start bit is out, at most nine slots of the frame are left. -/
theorem frameRest_length_le {f : TxFrame} (h : 0 ≤ f.bitIndex) : (frameRest f).length ≤ 9 := by
  cases hd : f.done with
  | true => simp [hd]
  | false =>
    rw [frameRest_unfinished hd, List.length_drop, frameLevels_length]
    omega

/-- ENC.nextBit emits the first of the slots that are left (43 R141). -/
theorem nextBit_frameRest {f : TxFrame} (hd : f.done = false) (hf : 0 ≤ f.bitIndex ∧ f.bitIndex ≤ 8) :
    ∃ l f', ENC.nextBit f = .ok (l, f') ∧ frameRest f = l :: frameRest f' := by
  refine ⟨_, _, nextBit_legal hd (by omega) hf.2, ?_⟩
  rw [frameRest_unfinished hd]
  by_cases h8 : f.bitIndex = 8
  · rw [if_pos h8, h8]
    rfl
  · have hk : (f.bitIndex + 1).toNat < (frameLevels f.byte).length := by
      rw [frameLevels_length]
      omega
    have hsucc : (f.bitIndex + 1).toNat + 1 = (f.bitIndex + 1 + 1).toNat := by omega
    rw [if_neg h8, frameRest_unfinished (f := { f with bitIndex := f.bitIndex + 1 }) hd,
      List.drop_eq_getElem_cons hk, hsucc]
    simp [frameLevels]

/-- A message begins with the start bit of its first byte. -/
theorem messageLevels_cons (b : Byte) (rest : List Byte) :
    messageLevels (b :: rest) = .low :: (frameRest ⟨b, 0, false⟩ ++ messageLevels rest) := rfl

/-- With nothing pending but the buffer, there is a byte to take as long as a slot is pending. -/
theorem buf_of_pending {bs : List Byte} {l : Level} {ls : List Level} (h : messageLevels bs = l :: ls) :
    ∃ b rest, bs = b :: rest ∧ l = .low ∧ frameRest ⟨b, 0, false⟩ ++ messageLevels rest = ls := by
  cases bs with
  | nil => cases h
  | cons b rest =>
    rw [messageLevels_cons] at h
    injection h with hl hls
    exact ⟨b, rest, rfl, hl.symm, hls⟩

theorem messageLevels_eq_nil {bs : List Byte} (h : messageLevels bs = []) : bs = [] := by
  cases bs with
  | nil => rfl
  | cons b rest => cases h

/-- Where the engine is not sending it has no frame, so that only the buffer is pending. -/
theorem ReadyInv.pending_of_not_transmitting {s : State} (h : ReadyInv s) (hs : s.state ≠ .transmitting) :
    pendingLevels s = messageLevels s.buf := by
  simp [pendingLevels, h.frame_eq_none hs]

theorem ReadyInv.frame_of_transmitting {s : State} (h : ReadyInv s) (hs : s.state = .transmitting) :
    ∃ f, s.frame = some f := by
  obtain ⟨-, -, h3, -⟩ := h
  exact Option.ne_none_iff_exists'.1 (h3.1 hs)

/-- INV2: outside IDLE a callback is scheduled, and in IDLE none is. -/
theorem ReadyInv.idle_iff {s : State} (h : ReadyInv s) : s.state = .idle ↔ s.timer = none := by
  obtain ⟨-, h2, -⟩ := h
  exact h2

theorem ReadyInv.mapped {s : State} (h : ReadyInv s) : s.mapped = true := by
  obtain ⟨-, -, -, -, -, ⟨hm, -⟩, -⟩ := h
  exact hm

theorem ReadyInv.field {s : State} (h : ReadyInv s) : pinField s = Config.funcOutput := by
  obtain ⟨-, -, -, -, -, ⟨-, hf⟩, -⟩ := h
  exact hf

/-- A tick with a slot pending sends it (44 R153, R155, R156). -/
theorem ReadyInv.tick_sends {s : State} (h : ReadyInv s) (hs : s.state ≠ .idle) {l : Level} {ls : List Level}
    (hp : pendingLevels s = l :: ls) :
    ∃ buf f, TickEffect s (Machine.slotSent buf f l s) ∧ frameRest f ++ messageLevels buf = ls ∧ buf <:+ s.buf := by
  cases hst : s.state with
  | idle => exact absurd hst hs
  | armed =>
    rw [h.pending_of_not_transmitting (by simp [hst])] at hp
    obtain ⟨b, rest, hb, rfl, hls⟩ := buf_of_pending hp
    exact ⟨rest, ⟨b, 0, false⟩, .caseA b rest h.mapped hst hb rfl, hls, hb ▸ List.suffix_cons b rest⟩
  | transmitting =>
    obtain ⟨f, hf⟩ := h.frame_of_transmitting hst
    simp only [pendingLevels, hf, Option.elim_some] at hp
    cases hd : f.done with
    | true =>
      rw [frameRest_done hd, List.nil_append] at hp
      obtain ⟨b, rest, hb, rfl, hls⟩ := buf_of_pending hp
      exact ⟨rest, ⟨b, 0, false⟩, .caseD f b rest h.mapped hst hf hd hb rfl, hls, hb ▸ List.suffix_cons b rest⟩
    | false =>
      obtain ⟨l', f', hn, hrest⟩ := nextBit_frameRest hd (h.bitIndex_bounds hst hf)
      rw [hrest, List.cons_append] at hp
      injection hp with hl hls
      exact ⟨s.buf, f', .caseC f f' l h.mapped hst hf hd (hl ▸ hn) rfl, hls, List.suffix_rfl⟩

/-- A tick with no slot pending ends the message (44 R154, R157). -/
theorem ReadyInv.tick_ends {s : State} (h : ReadyInv s) (hs : s.state ≠ .idle) (hp : pendingLevels s = []) :
    TickEffect s { s with timer := none, frame := none, state := .idle } := by
  have buf_empty : s.buf = [] := messageLevels_eq_nil (List.append_eq_nil_iff.1 hp).2
  cases hst : s.state with
  | idle => exact absurd hst hs
  | armed => exact .caseB hst buf_empty (by rw [← h.frame_eq_none (by simp [hst])])
  | transmitting =>
    obtain ⟨f, hf⟩ := h.frame_of_transmitting hst
    cases hd : f.done with
    | true => exact .caseE f hst hf hd buf_empty rfl
    | false =>
      obtain ⟨l, f', -, hrest⟩ := nextBit_frameRest hd (h.bitIndex_bounds hst hf)
      simp [pendingLevels, hf, hrest] at hp

/-- Outside IDLE the tick always has a case to take. -/
theorem ReadyInv.exists_tickEffect {s : State} (h : ReadyInv s) (hs : s.state ≠ .idle) : ∃ t, TickEffect s t := by
  cases hp : pendingLevels s with
  | nil => exact ⟨_, h.tick_ends hs hp⟩
  | cons l ls =>
    obtain ⟨buf, f, he, -⟩ := h.tick_sends hs hp
    exact ⟨_, he⟩

end Sys2Proof

namespace Sys2Proof.Machine

/-- A tick either sends one slot, taking a byte from the buffer or none, or it writes nothing and ends in IDLE. -/
theorem tickEffect_sends_or_ends {s t : State} (h : TickEffect s t) :
    (∃ buf f l, (buf = s.buf ∨ buf = s.buf.tail) ∧ t = slotSent buf f l s) ∨
      (t.buf = s.buf ∧ t.timer = none ∧ t.trace = s.trace ∧ t.out = s.out ∧ t.state = .idle) := by
  cases h with
  | caseA b rest hm hs hb ht => exact .inl ⟨_, _, _, .inr (by rw [hb, List.tail_cons]), ht⟩
  | caseB hs hb ht => exact .inr (ht ▸ ⟨rfl, rfl, rfl, rfl, rfl⟩)
  | caseC f f' l hm hs hf hd hn ht => exact .inl ⟨_, _, _, .inl rfl, ht⟩
  | caseD f b rest hm hs hf hd hb ht => exact .inl ⟨_, _, _, .inr (by rw [hb, List.tail_cons]), ht⟩
  | caseE f hs hf hd hb ht => exact .inr (ht ▸ ⟨rfl, rfl, rfl, rfl, rfl⟩)

/-- From IDLE, with no callback, the block stays so through every operation but those that arm it or take it down. -/
theorem staysIdle_of_effect {i : Instr} {s t : State} (hl : s.life = .ready) (hs : s.state = .idle) (ht : s.timer = none)
    (hi : i.assembled = true) (harm : i ≠ .engArm) (hdown : i ≠ .sysTeardown) (hwrite : ∀ d n, i ≠ .devWrite d n)
    (he : Effect i s t) : t.life = .ready ∧ t.state = .idle ∧ t.timer = none := by
  cases i with
  | engArm => exact absurd rfl harm
  | sysTeardown => exact absurd rfl hdown
  | devWrite d n => exact absurd rfl (hwrite d n)
  | sysInit => obtain ⟨hnot, -⟩ := he; exact absurd hl hnot
  | engTick => obtain ⟨-, hdue, -⟩ := he; simp [ht] at hdue
  | engCancel => obtain ⟨-, rfl⟩ := he; exact ⟨hl, rfl, rfl⟩
  | mbEnqueue => obtain ⟨-, ⟨-, rfl⟩ | ⟨-, -, rfl⟩ | ⟨-, -, rfl⟩⟩ := he <;> exact ⟨hl, hs, ht⟩
  | mbConsume => obtain ⟨-, rfl⟩ := he; exact ⟨hl, hs, ht⟩
  | mbIsEmpty => obtain ⟨-, rfl⟩ := he; exact ⟨hl, hs, ht⟩
  | devOpen => obtain ⟨-, rfl⟩ := he; exact ⟨hl, hs, ht⟩
  | devRead => obtain ⟨-, rfl | rfl⟩ := he <;> exact ⟨hl, hs, ht⟩
  | devClose => obtain ⟨-, rfl⟩ := he; exact ⟨hl, hs, ht⟩
  | _ => simp [Instr.assembled, Instr.format] at hi

end Sys2Proof.Machine

namespace Sys2Proof.Proofs
open Sys2Proof Sys2Proof.Machine

/-- Settles O30: where the invariant holds a due tick has a case to take, and INV2 ties IDLE to an unarmed timer. -/
theorem tickRunsExactlyWhenDue : Obligations.TickRunsExactlyWhenDue := by
  refine ⟨fun s hinv => ?_, fun s hl ht => engTick_not_due hl ht, fun s hl hs => engTick_idle_refused hl hs,
    fun s hinv hl hs => (hinv.readyInv hl).idle_iff.1 hs⟩
  refine ⟨fun ⟨t, ht⟩ => ?_, fun ⟨hl, ht⟩ => ?_⟩
  · obtain ⟨hl, hdue, -⟩ := engTick_eq_next_iff.1 ht
    exact ⟨hl, hdue⟩
  · have hr := hinv.readyInv hl
    have not_idle : s.state ≠ .idle := fun hs => by simp [hr.idle_iff.1 hs] at ht
    obtain ⟨t, he⟩ := hr.exists_tickEffect not_idle
    exact ⟨t, engTick_eq_next_iff.2 ⟨hl, ht, he⟩⟩

/-- Settles O32: with no callback scheduled no tick fires, and no other operation of the assembled block touches a
register. -/
theorem noAccessUntilArmedAgain : Obligations.NoAccessUntilArmedAgain := by
  intro s t hinv hl hs hcall hst
  have ht : s.timer = none := (hinv.readyInv hl).idle_iff.1 hs
  have quiet : ∃ es, s.trace = s.trace ++ es ∧ ∀ e ∈ es, e.event.isAccess = false := ⟨[], by simp, by simp⟩
  cases step_effect hst with
  | idle hi _ e => subst e; exact ⟨hl, hs, ht, quiet⟩
  | tick due hd hn _ he => simp [ht] at hd
  | issuedTick ctx cmd rest due hi hc hd hn _ he => simp [ht] at hd
  | elapsed u rest hi hu hd e => subst e; exact ⟨hl, hs, ht, quiet⟩
  | outsideFsel i v rest hi hf e => subst e; exact ⟨hl, hs, ht, quiet⟩
  | outsideLatch p l rest hi hp e => subst e; exact ⟨hl, hs, ht, quiet⟩
  | call ctx cmd rest i hi hc hx htick he =>
    obtain ⟨harm, hdown, hwrite⟩ := hcall _ rest hi
    have hassembled := hinv.call_assembled hi (fetch_of_decode hc hx)
    obtain ⟨hl', hs', ht'⟩ := staysIdle_of_effect (s := { s with inbox := rest }) hl hs ht hassembled
      (fun e => harm ⟨ctx, cmd, rfl, e ▸ hc⟩) (fun e => hdown ⟨ctx, cmd, rfl, e ▸ hc⟩)
      (fun d n e => hwrite d n ⟨ctx, cmd, rfl, e ▸ hc⟩) he
    obtain ⟨u, st, res, rfl, -, -, htrace⟩ :=
      onlyAnswers_of_effect (s := { s with inbox := rest }) hl hassembled htick he
    exact ⟨hl', hs', ht', [⟨u.now, .resp i st res⟩], by simp [htrace], by simp [TraceEvent.isAccess]⟩

/-- Settles O35: a tick sends one slot or ends in IDLE. -/
theorem oneTransitionPerTick : Obligations.OneTransitionPerTick := by
  intro s t hex
  obtain ⟨-, hdue, he⟩ := engTick_eq_next_iff.1 hex
  obtain ⟨hnow, -, -, -, -, hfsel, -⟩ := tickEffect_frame he
  have others : ∀ p : Fin Config.npins, p ≠ s.cfg.logicalPin → t.out[p] = s.out[p] :=
    fun p hp => tickEffect_out_other he hp
  obtain ⟨buf, f, l, hbuf, rfl⟩ | ⟨hbuf, ends⟩ := tickEffect_sends_or_ends he
  · exact ⟨hdue, hnow, hbuf, hfsel, others, .inl ⟨rfl, l, rfl, by simp [slotSent]⟩⟩
  · exact ⟨hdue, hnow, .inl hbuf, hfsel, others, .inr ends⟩

end Sys2Proof.Proofs
end

section
/-!
SUPPORT for the run of a message: a block left alone with a callback pending sends its pending slots one per tick, one bit
period apart, and the tick after the last of them ends the message (44 R165).
-/

namespace Sys2Proof.Machine

/-- A run goes on after its first step. -/
theorem run_succ_of_step {M : Host.Core} {s u : M.State} (h : M.step s = .next u) (k : Nat) :
    M.run (k + 1) s = M.run k u := by
  rw [Host.Core.run, h]

/-- The last step of a run. -/
theorem run_succ_of_run {M : Host.Core} {k : Nat} {s u : M.State} (h : M.run k s = .next u) :
    M.run (k + 1) s = M.step u := by
  induction k generalizing s with
  | zero =>
    obtain rfl : s = u := Host.Outcome.next.inj h
    rw [Host.Core.run]
    cases M.step s <;> rfl
  | succ k ih =>
    cases hst : M.step s with
    | next v =>
      rw [run_succ_of_step hst] at h ⊢
      exact ih h
    | fault r => simp [Host.Core.run, hst] at h
    | refused r => simp [Host.Core.run, hst] at h

end Sys2Proof.Machine

namespace Sys2Proof
open Sys2Proof.Machine

/-- A READY block that the environment leaves alone, with its callback pending for `due`. -/
structure LeftAlone (due : Time) (s : State) : Prop where
  ready : s.life = .ready
  inv : ReadyInv s
  inbox : s.inbox = []
  timer : s.timer = some due

/-- The state after the slots `ls` were sent, the first at `due` and one every bit period: `buf` is left in the buffer and
the frame is `f`. -/
def slotsSent (due : Time) (buf : List Byte) (f : TxFrame) (ls : List Level) (s : State) : State :=
  { s with
    buf := buf
    frame := some f
    out := s.out.set s.cfg.logicalPin (ls.getLastD s.out[s.cfg.logicalPin])
    timer := some (due + ls.length * bitPeriod s)
    now := due + (ls.length - 1) * bitPeriod s
    state := .transmitting
    trace := s.trace ++ slotTrace s.cfg.logicalPin (bitPeriod s) due ls }

/-- One slot, as a tick at `due` sends it. -/
theorem slotsSent_singleton (due : Time) (buf : List Byte) (f : TxFrame) (l : Level) (s : State) :
    slotsSent due buf f [l] s = slotSent buf f l { s with now := due } := by
  simp [slotsSent, slotSent, slotTrace, bitPeriod]

/-- The time of a sequence of slots is that of its first and that of the others. -/
theorem period_add_length_mul (t T : Time) (l : Level) (ls : List Level) :
    t + T + ls.length * T = t + (l :: ls).length * T := by
  push_cast [List.length_cons]
  ring

/-- After one slot the others follow one bit period later. -/
theorem slotsSent_cons (due : Time) (buf buf' : List Byte) (f f' : TxFrame) (l : Level) (ls : List Level) (s : State) :
    slotsSent (due + bitPeriod s) buf' f' ls (slotsSent due buf f [l] s) = slotsSent due buf' f' (l :: ls) s := by
  have timer := period_add_length_mul due (bitPeriod s) l ls
  have now : due + bitPeriod s + (ls.length - 1) * bitPeriod s = due + ((l :: ls).length - 1 : Rat) * bitPeriod s := by
    push_cast [List.length_cons]
    ring
  have out : (s.out.set s.cfg.logicalPin l).set s.cfg.logicalPin
        (ls.getLastD (s.out.set s.cfg.logicalPin l)[s.cfg.logicalPin]) =
      s.out.set s.cfg.logicalPin ((l :: ls).getLastD s.out[s.cfg.logicalPin]) := by
    rw [List.getLastD_cons, Vector.set_set]
    simp
  have trace : s.trace ++ slotTrace s.cfg.logicalPin (bitPeriod s) due [l] ++
        slotTrace s.cfg.logicalPin (bitPeriod s) (due + bitPeriod s) ls =
      s.trace ++ slotTrace s.cfg.logicalPin (bitPeriod s) due (l :: ls) := by
    simp [slotTrace]
  rw [slotsSent, slotsSent, slotsSent, ← timer, ← now, ← out, ← trace]
  rfl

section
variable {due : Time} {s : State} (h : LeftAlone due s)
include h

theorem LeftAlone.not_idle : s.state ≠ .idle := fun hs => by
  have unarmed := h.inv.idle_iff.1 hs
  simp [h.timer] at unarmed

theorem LeftAlone.now_le_due : s.now ≤ due := by
  obtain ⟨-, -, -, -, -, -, h7⟩ := h.inv
  exact (h7 due h.timer).1

theorem LeftAlone.inv_at_due : ReadyInv { s with now := due } :=
  h.inv.later h.now_le_due fun _ hd => (Option.some.inj (h.timer.symm.trans hd)).le

/-- The step of a block left alone is the tick at the due time. -/
theorem LeftAlone.step_of_effect {t : State} (he : TickEffect { s with now := due } t) : step s = .next t := by
  have pending : callbackPending s = true := by simp [callbackPending, h.timer]
  rw [step_of_inbox_nil h.inbox, idleStep, if_pos pending, fireTick_of_due h.timer h.now_le_due]
  exact engTick_eq_next_iff.2 ⟨h.ready, h.timer, he⟩

/-- With a slot pending the step sends it, and the block is left alone for another bit period. -/
theorem LeftAlone.step_sends {l : Level} {ls : List Level} (hp : pendingLevels s = l :: ls) :
    ∃ buf f, step s = .next (slotsSent due buf f [l] s) ∧ pendingLevels (slotsSent due buf f [l] s) = ls ∧
      buf <:+ s.buf ∧ LeftAlone (due + bitPeriod s) (slotsSent due buf f [l] s) := by
  obtain ⟨buf, f, he, hls, hbuf⟩ := h.inv_at_due.tick_sends h.not_idle hp
  rw [← slotsSent_singleton] at he
  refine ⟨buf, f, h.step_of_effect he, hls, hbuf, h.ready, h.inv_at_due.tick he, h.inbox, ?_⟩
  simp [slotsSent]

/-- With no slot pending the step ends the message. -/
theorem LeftAlone.step_ends (hp : pendingLevels s = []) :
    step s = .next { s with now := due, timer := none, frame := none, state := .idle } :=
  h.step_of_effect (h.inv_at_due.tick_ends h.not_idle hp)

end

/-- `n` ticks of a block left alone send its first `n` pending slots. -/
theorem LeftAlone.run_sends {due : Time} {s : State} (h : LeftAlone due s) {ls rest : List Level}
    (hp : pendingLevels s = ls ++ rest) (hne : ls ≠ []) :
    ∃ buf f, core.run ls.length s = .next (slotsSent due buf f ls s) ∧
      pendingLevels (slotsSent due buf f ls s) = rest ∧ buf <:+ s.buf ∧
      LeftAlone (due + ls.length * bitPeriod s) (slotsSent due buf f ls s) := by
  induction ls generalizing due s with
  | nil => exact absurd rfl hne
  | cons l ls ih =>
    obtain ⟨buf, f, hst, hrest, hbuf, halone⟩ := h.step_sends hp
    rw [List.length_cons, run_succ_of_step (M := core) hst]
    by_cases hls : ls = []
    · subst hls
      exact ⟨buf, f, rfl, hrest, hbuf, by simpa using halone⟩
    · obtain ⟨buf', f', hrun, hrest', hbuf', halone'⟩ := ih halone hrest hls
      rw [slotsSent_cons] at hrun hrest' halone'
      exact ⟨buf', f', hrun, hrest', hbuf'.trans hbuf, period_add_length_mul due (bitPeriod s) l ls ▸ halone'⟩

/-- The ticks of a block left alone up to the end of its message. -/
theorem LeftAlone.run_ends {due : Time} {s : State} (h : LeftAlone due s) (hne : pendingLevels s ≠ []) :
    ∃ f, core.run ((pendingLevels s).length + 1) s = .next
      { slotsSent due [] f (pendingLevels s) s with
        now := due + (pendingLevels s).length * bitPeriod s, timer := none, frame := none, state := .idle } := by
  obtain ⟨buf, f, hrun, hrest, -, halone⟩ := h.run_sends (List.append_nil _).symm hne
  have buf_empty : buf = [] := messageLevels_eq_nil (List.append_eq_nil_iff.1 hrest).2
  subst buf_empty
  exact ⟨f, (run_succ_of_run (M := core) hrun).trans (halone.step_ends hrest)⟩

/-- A block that is transmitting has as many bytes in its buffer as whole frames are pending: the frame in progress has
nine slots left at most. -/
theorem LeftAlone.buf_length {due : Time} {s : State} (h : LeftAlone due s) (hs : s.state = .transmitting) :
    s.buf.length = (pendingLevels s).length / 10 := by
  obtain ⟨f, hf⟩ := h.inv.frame_of_transmitting hs
  have hle := frameRest_length_le (h.inv.bitIndex_bounds hs hf).1
  simp only [pendingLevels, hf, Option.elim_some, List.length_append, messageLevels_length]
  omega

/-- A message ends with the stop bit of its last byte, HIGH. -/
theorem messageLevels_getLastD {bs : List Byte} (h : bs ≠ []) (l : Level) : (messageLevels bs).getLastD l = .high := by
  obtain ⟨init, b, rfl⟩ := List.eq_nil_or_concat bs |>.resolve_left h
  have last : messageLevels (init ++ [b]) = (messageLevels init ++ (List.range 9).map (slotLevel b)) ++ [.high] := by
    simp [messageLevels, frameLevels, List.range_succ, slotLevel]
  rw [List.concat_eq_append, last, List.getLastD_concat]

/-! The arming of a message. -/

/-- The state after ENG.arm in IDLE with a payload, its answer recorded (44 R151). -/
def messageArmed (s : State) : State :=
  record (.resp .engArm .ok .none) { s with timer := some (s.now + bitPeriod s), state := .armed }

@[simp] theorem bitPeriod_messageArmed (s : State) : bitPeriod (messageArmed s) = bitPeriod s := rfl

theorem exec_engArm_messageArmed {s : State} (hl : s.life = .ready) (hs : s.state = .idle) (hb : s.buf ≠ []) :
    exec .engArm s = .next (messageArmed s) := by
  obtain ⟨-, -, arms⟩ := Proofs.armSchedulesTheFirstCallback
  exact (arms s hl).1 hs hb

theorem pendingLevels_messageArmed {s : State} (hr : ReadyInv s) (hs : s.state = .idle) :
    pendingLevels (messageArmed s) = messageLevels s.buf :=
  hr.pending_of_not_transmitting (by simp [hs])

section
variable {s : State} (hr : ReadyInv s) (hl : s.life = .ready) (hs : s.state = .idle) (hin : s.inbox = [])
  (hb : s.buf ≠ [])
include hr hl hs hin hb

theorem leftAlone_messageArmed : LeftAlone (s.now + bitPeriod s) (messageArmed s) := by
  have hinv := hr.arm
  rw [ENG.arm, if_pos ⟨hs, hb⟩] at hinv
  exact ⟨hl, hinv, hin, rfl⟩

/-- 44 R165: after `k` ticks the first `k` slots of the message are out, and the bytes whose frames have not begun are
left in the buffer. -/
theorem message_after {k : Nat} (h1 : 1 ≤ k) (hk : k ≤ 10 * s.buf.length) :
    ∃ f, core.run k (messageArmed s) = .next (slotsSent (s.now + bitPeriod s) (s.buf.drop ((k + 9) / 10)) f
      ((messageLevels s.buf).take k) (messageArmed s)) := by
  have halone := leftAlone_messageArmed hr hl hs hin hb
  have hlen : ((messageLevels s.buf).take k).length = k := by simpa using hk
  have hne : (messageLevels s.buf).take k ≠ [] := by
    rw [← List.length_pos_iff]
    omega
  obtain ⟨buf, f, hrun, hrest, hbuf, hsent⟩ := halone.run_sends
    ((pendingLevels_messageArmed hr hs).trans (List.take_append_drop k _).symm) hne
  have left : buf.length = (10 * s.buf.length - k) / 10 := by
    have hcount := hsent.buf_length rfl
    rwa [hrest, List.length_drop, messageLevels_length] at hcount
  have taken : s.buf.length - buf.length = (k + 9) / 10 := by omega
  have hdrop : buf = s.buf.drop ((k + 9) / 10) := taken ▸ List.suffix_iff_eq_drop.1 hbuf
  rw [hlen] at hrun
  exact ⟨f, hdrop ▸ hrun⟩

/-- 44 R165: the tick after the last slot of a message ends it. -/
theorem message_finished :
    core.run (10 * s.buf.length + 1) (messageArmed s) = .next { s with
      now := s.now + (10 * s.buf.length + 1 : Nat) * bitPeriod s
      buf := []
      out := s.out.set s.cfg.logicalPin .high
      trace := (messageArmed s).trace ++
        slotTrace s.cfg.logicalPin (bitPeriod s) (s.now + bitPeriod s) (messageLevels s.buf) } := by
  have hpend := pendingLevels_messageArmed hr hs
  have hframe : s.frame = none := hr.frame_eq_none (by simp [hs])
  have htimer : s.timer = none := hr.idle_iff.1 hs
  have hnow : s.now + bitPeriod s + ((10 * s.buf.length : Nat) : Rat) * bitPeriod s =
      s.now + (10 * s.buf.length + 1 : Nat) * bitPeriod s := by
    push_cast
    ring
  obtain ⟨f, hrun⟩ := (leftAlone_messageArmed hr hl hs hin hb).run_ends
    (hpend ▸ fun h => hb (messageLevels_eq_nil h))
  rw [hpend, messageLevels_length] at hrun
  rw [hrun]
  simp only [slotsSent, messageLevels_getLastD hb, bitPeriod_messageArmed, hnow]
  simp [messageArmed, hframe, htimer, hs]

end

end Sys2Proof

namespace Sys2Proof.Proofs
open Sys2Proof Sys2Proof.Machine

/-- Settles O36: the armed block is left alone with the slots of the message pending, so it sends them and ends. -/
theorem messageIsSentSlotBySlot : Obligations.MessageIsSentSlotBySlot := by
  rintro s bytes hinv hl hs hin rfl hne
  have hr := hinv.readyInv hl
  refine ⟨messageArmed s, exec_engArm_messageArmed hl hs hne, fun k h1 hk => ?slots, ?finish⟩
  case slots =>
    obtain ⟨f, hrun⟩ := message_after hr hl hs hin hne h1 hk
    have hlen : ((messageLevels s.buf).take k).length = k := by simpa using hk
    have hnow : s.now + bitPeriod s + ((k : Rat) - 1) * bitPeriod s = s.now + k * bitPeriod s := by ring
    have htimer : s.now + bitPeriod s + k * bitPeriod s = s.now + k * bitPeriod s + bitPeriod s := by ring
    refine ⟨_, hrun, ?_, ?_, rfl, rfl, rfl⟩
    · simp only [slotsSent, hlen]
      exact hnow
    · simp only [slotsSent, hlen, bitPeriod_messageArmed, hnow]
      exact congrArg some htimer
  case finish =>
    refine ⟨_, message_finished hr hl hs hin hne, rfl, line_of_output_latch ?_ (Vector.getElem_set_self _)⟩
    exact hr.field

end Sys2Proof.Proofs
end

section
/-!
SUPPORT for the message buffer statements: what MB.enqueue and MB.dequeue do in each of their cases, what an issued
operation of the buffer answers, and the block after a consume (45 R180 to R185).
-/

namespace Sys2Proof.Machine

theorem enqueue_oversize {bytes : List Byte} (h : Config.capacity < bytes.length) (s : State) :
    MB.enqueue bytes s = (.eOversize, s) := if_pos h

theorem enqueue_busy {bytes : List Byte} {s : State} (h : bytes.length ≤ Config.capacity) (hs : s.state ≠ .idle) :
    MB.enqueue bytes s = (.eBusy, s) := by
  rw [MB.enqueue, if_neg (Nat.not_lt.2 h), if_pos hs]

theorem enqueue_idle {bytes : List Byte} {s : State} (h : bytes.length ≤ Config.capacity) (hs : s.state = .idle) :
    MB.enqueue bytes s = (.ok, { s with buf := bytes }) := by
  rw [MB.enqueue, if_neg (Nat.not_lt.2 h), if_neg (not_not.2 hs)]

theorem answers_mbEnqueue {s : State} (hl : s.life = .ready) (bytes : List Byte) :
    Answers (.mbEnqueue bytes) s (MB.enqueue bytes s).1 .none (MB.enqueue bytes s).2 := by
  simp only [Answers, exec, execMbEnqueue, whenReady_ready hl, reply]

theorem answers_mbConsume {s : State} (hl : s.life = .ready) :
    Answers .mbConsume s .ok (.bytes s.buf s.buf.length) { s with buf := [] } := by
  simp only [Answers, exec, execMbConsume, whenReady_ready hl, MB.consume, reply]

theorem answers_mbIsEmpty {s : State} (hl : s.life = .ready) :
    Answers .mbIsEmpty s .ok (.flag (MB.isEmpty s)) s := by
  simp only [Answers, exec, execMbIsEmpty, whenReady_ready hl, reply]

theorem isEmpty_eq_decide_length (s : State) : MB.isEmpty s = decide (s.buf.length = 0) := by
  rw [MB.isEmpty]
  cases s.buf with
  | nil => rfl
  | cons b rest => rfl

theorem exec_mbDequeue_empty {s : State} (hl : s.life = .ready) (hb : s.buf = []) :
    exec .mbDequeue s = .refused .emptyBuffer := by
  simp only [exec, execMbDequeue, whenReady_ready hl, MB.dequeue, hb]

theorem answers_mbDequeue {s : State} (hl : s.life = .ready) {b : Byte} {rest : List Byte} (hb : s.buf = b :: rest) :
    Answers .mbDequeue s .ok (.byte b) { s with buf := rest } := by
  simp only [Answers, exec, execMbDequeue, whenReady_ready hl, MB.dequeue, hb, reply]

/-- The state after MB.consume, its answer recorded (45 R181). -/
def bufConsumed (s : State) : State :=
  record (.resp .mbConsume .ok (.bytes s.buf s.buf.length)) { s with buf := [] }

end Sys2Proof.Machine

namespace Sys2Proof
open Sys2Proof.Machine

/-- INV3: only a block that is transmitting has a frame. -/
theorem ReadyInv.transmitting_of_frame {s : State} (h : ReadyInv s) {f : TxFrame} (hf : s.frame = some f) :
    s.state = .transmitting := by
  by_contra hs
  simp [h.frame_eq_none hs] at hf

/-- 45 R185: after a consume only the rest of the frame in progress is left to send. -/
theorem pendingLevels_bufConsumed (s : State) : pendingLevels (bufConsumed s) = s.frame.elim [] frameRest :=
  List.append_nil _

/-- A consume touches neither the timer nor the environment's choices. -/
theorem LeftAlone.consume {due : Time} {s : State} (h : LeftAlone due s) : LeftAlone due (bufConsumed s) :=
  ⟨h.ready, h.inv.withBuf (Nat.zero_le _), h.inbox, h.timer⟩

/-- A block left alone with no slot to send idles at its next tick. -/
theorem LeftAlone.run_one_ends {due : Time} {s : State} (h : LeftAlone due s) (hp : pendingLevels s = []) :
    core.run 1 s = .next { s with now := due, timer := none, frame := none, state := .idle } :=
  run_succ_of_step (M := core) (h.step_ends hp) 0

/-- 45 R185: after a consume a frame in progress sends the slots it has left, and the next tick idles. -/
theorem LeftAlone.frame_finishes_after_consume {due : Time} {s : State} (h : LeftAlone due s) {f : TxFrame} {k : Nat}
    (hf : s.frame = some f) (hd : f.done = false) (hk : f.bitIndex = k) :
    ∃ f', core.run (9 - k + 1) (bufConsumed s) = .next
      { slotsSent due [] f' ((frameLevels f.byte).drop (k + 1)) (bufConsumed s) with
        now := due + ((9 - k : Nat) : Rat) * bitPeriod s, timer := none, frame := none, state := .idle } := by
  have bounds := h.inv.bitIndex_bounds (h.inv.transmitting_of_frame hf) hf
  have hk8 : k ≤ 8 := by omega
  have slots : pendingLevels (bufConsumed s) = (frameLevels f.byte).drop (k + 1) := by
    rw [pendingLevels_bufConsumed, hf, Option.elim_some, frameRest_unfinished hd, hk]
    rfl
  have count : ((frameLevels f.byte).drop (k + 1)).length = 9 - k := by
    rw [List.length_drop, frameLevels_length]
    omega
  have some_left : pendingLevels (bufConsumed s) ≠ [] := by
    rw [slots, ← List.length_pos_iff]
    omega
  obtain ⟨f', hrun⟩ := h.consume.run_ends some_left
  rw [slots, count] at hrun
  exact ⟨f', hrun⟩

end Sys2Proof

namespace Sys2Proof.Proofs
open Sys2Proof Sys2Proof.Machine

/-- Settles O37: after the consume the block is left alone with only the rest of its frame pending, which is nothing when
the frame is finished or not begun. -/
theorem consumeLetsTheFrameFinish : Obligations.ConsumeLetsTheFrameFinish := by
  intro s due hinv hl hin ht
  have alone : LeftAlone due s := ⟨hl, hinv.readyInv hl, hin, ht⟩
  have next_tick_idles (hp : s.frame.elim [] frameRest = []) :=
    alone.consume.run_one_ends ((pendingLevels_bufConsumed s).trans hp)
  refine ⟨bufConsumed s, answers_mbConsume hl, answers_mbConsume hl, fun f k hf hd hk => ?progress,
    fun f hf hd => ?finished, fun hs => ?armed⟩
  case progress =>
    obtain ⟨f', hrun⟩ := alone.frame_finishes_after_consume hf hd hk
    exact ⟨_, hrun, rfl, rfl, rfl, rfl, rfl⟩
  case finished => exact ⟨_, next_tick_idles (by simp [hf, hd]), rfl, rfl, rfl, rfl, rfl, rfl, rfl⟩
  case armed =>
    have no_frame := alone.inv.frame_eq_none (by simp [hs])
    exact ⟨_, next_tick_idles (by simp [no_frame]), rfl, rfl, rfl⟩

/-- Settles O38: the three branches of `MB.enqueue`. -/
theorem enqueueReplacesThePayload : Obligations.EnqueueReplacesThePayload := by
  refine ⟨fun _ => ⟨rfl, rfl, rfl⟩, fun s bs hl => exec_notReady hl (by simp), fun s bytes hl => ?_⟩
  have answers := answers_mbEnqueue hl bytes
  refine ⟨fun hlen => ?_, fun hlen hs => ?_, fun hlen hs => ?_⟩
  · rwa [enqueue_oversize hlen] at answers
  · rwa [enqueue_busy hlen hs] at answers
  · rwa [enqueue_idle hlen hs] at answers

/-- Settles O39: the first call leaves an empty buffer, which is what the second one returns. -/
theorem consumeTakesEverything : Obligations.ConsumeTakesEverything := by
  refine ⟨⟨rfl, rfl, rfl⟩, fun s hl => exec_notReady hl (by simp), fun s hl => ⟨answers_mbConsume hl, fun t hex => ?_⟩⟩
  obtain rfl : bufConsumed s = t := Host.Outcome.next.inj ((answers_mbConsume hl).symm.trans hex)
  exact answers_mbConsume (s := bufConsumed s) hl

/-- Settles O40: the buffer is empty exactly when its length is 0. -/
theorem isEmptyTellsTheLength : Obligations.IsEmptyTellsTheLength :=
  ⟨⟨rfl, rfl, rfl⟩, fun _ hl => exec_notReady hl (by simp),
    fun s hl => isEmpty_eq_decide_length s ▸ answers_mbIsEmpty hl⟩

/-- Settles O41: the two cases of `MB.dequeue`. -/
theorem dequeueTakesTheHead : Obligations.DequeueTakesTheHead :=
  ⟨⟨rfl, rfl, rfl⟩, fun _ hl hb => exec_mbDequeue_empty hl (List.length_eq_zero_iff.1 hb),
    fun _ _ _ hl hb => answers_mbDequeue hl hb⟩

end Sys2Proof.Proofs
end

section
/-!
SUPPORT for the lifecycle and the device file: what SYS.teardown and each DEV operation answer (46 R191 to R195), and that
no operation changes the configuration of a READY block (46 R196).
-/

namespace Sys2Proof.Machine

/-! SYS.init and SYS.teardown. -/

theorem exec_sysInit_ready {s : State} (hl : s.life = .ready) (pin baud : Option Int) :
    exec (.sysInit pin baud) s = .refused .alreadyReady := if_pos hl

/-- A good configuration, given or by default, is accepted (46 R190, R196). -/
theorem answers_sysInit {s : State} (hl : s.life ≠ .ready) {pin baud : Option Int} {p : Fin Config.npins} {rate : Nat}
    (hp : pinOrDefault pin = (p.val : Nat)) (hb : baudOrDefault baud = (rate : Nat)) (hr : 0 < rate) :
    Answers (.sysInit pin baud) s .ok .none (broughtUp p rate s) := sysInit_brings_up hl hp hb hr

theorem answers_sysTeardown {s : State} (hl : s.life = .ready) :
    Answers .sysTeardown s .ok .none (SYS.teardown s) := by
  simp only [Answers, exec, execSysTeardown, whenReady_ready hl, reply]

/-- SYS.init is the one operation that stores a configuration, and a READY block refuses it (46 R190, R196). -/
theorem effect_cfg_of_ready {i : Instr} {s t : State} (hl : s.life = .ready) (he : Effect i s t) : t.cfg = s.cfg := by
  cases i with
  | sysInit => obtain ⟨hnot, -⟩ := he; exact absurd hl hnot
  | engTick =>
    obtain ⟨-, -, he⟩ := he
    obtain ⟨-, -, hcfg, -⟩ := tickEffect_frame he
    exact hcfg
  | engArm =>
    obtain ⟨-, rfl⟩ := he
    obtain ⟨-, -, hcfg, -⟩ := arm_frame s
    exact hcfg
  | devWrite d n =>
    obtain ⟨-, -, ⟨-, rfl⟩ | ⟨-, -, rfl⟩ | ⟨-, -, rfl⟩⟩ := he
    · rfl
    · rfl
    · obtain ⟨-, -, hcfg, -⟩ := arm_frame { s with buf := messageText d n }
      exact hcfg
  | mbEnqueue => obtain ⟨-, ⟨-, rfl⟩ | ⟨-, -, rfl⟩ | ⟨-, -, rfl⟩⟩ := he <;> rfl
  | devRead => obtain ⟨-, rfl | rfl⟩ := he <;> rfl
  | rbSetFunction => obtain ⟨-, -, r, off, code, rfl⟩ := he; simp [fieldWritten]
  | rbSetBit | rbClearBit => obtain ⟨-, -, b, k, rfl⟩ := he; simp [bitWritten]
  | pdConfigureAsOutput => obtain ⟨-, -, p, rfl⟩ := he; simp [fieldWritten]
  | pdWriteLevel => obtain ⟨-, -, p, rfl⟩ := he; simp [pinDriven]
  | encNextBit | mbDequeue => obtain ⟨-, _, _, -, rfl⟩ := he; rfl
  | timerSchedule => obtain ⟨-, -, rfl⟩ := he; rfl
  | encFresh | engCancel | timerDeschedule | mbConsume | mbIsEmpty | sysTeardown | devOpen | devClose =>
    obtain ⟨-, rfl⟩ := he; rfl

/-! DEV.write (46 R193). -/

theorem messageText_ne_nil (data : List Byte) (n : Nat) : messageText data n ≠ [] := by
  rw [← List.length_pos_iff, messageText_length]
  omega

theorem arm_idle {s : State} (hs : s.state = .idle) (hb : s.buf ≠ []) :
    ENG.arm s = { s with state := .armed, timer := some (s.now + bitPeriod s) } := if_pos ⟨hs, hb⟩

theorem exec_devWrite_wrong_length {s : State} (hl : s.life = .ready) {data : List Byte} {n : Nat}
    (hn : n ≠ data.length) : exec (.devWrite data n) s = .refused .operandOutOfRange := by
  simp only [exec, execDevWrite, whenReady_ready hl, if_pos hn]

section
variable {s : State} {data : List Byte}

/-- When the message is not queued, the status of MB.enqueue is handed on and the engine is not armed. -/
theorem answers_devWrite_rejected (hl : s.life = .ready) {st : Status} (hst : st ≠ .ok)
    (henq : MB.enqueue (messageText data data.length) s = (st, s)) :
    Answers (.devWrite data data.length) s st .none s := by
  simp only [Answers, exec, execDevWrite, whenReady_ready hl, ne_eq, not_true_eq_false, if_false, henq]
  cases st with
  | ok => exact absurd rfl hst
  | eOversize | eBusy | eConfig | eFault | eRegistration => rfl

/-- The state after DEV.write has queued its message and armed the engine, its answer recorded (46 R193). -/
def messageWritten (data : List Byte) (s : State) : State :=
  record (.resp (.devWrite data data.length) .ok (.count data.length))
    { s with buf := messageText data data.length, state := .armed, timer := some (s.now + bitPeriod s) }

theorem exec_devWrite_queued (hl : s.life = .ready)
    (hlen : (messageText data data.length).length ≤ Config.capacity) (hs : s.state = .idle) :
    exec (.devWrite data data.length) s = .next (messageWritten data s) := by
  have armed : ENG.arm { s with buf := messageText data data.length } =
      { s with buf := messageText data data.length, state := .armed, timer := some (s.now + bitPeriod s) } :=
    arm_idle hs (messageText_ne_nil _ _)
  simp only [exec, execDevWrite, whenReady_ready hl, ne_eq, not_true_eq_false, if_false, enqueue_idle hlen hs, reply,
    armed, messageWritten]

end

/-! DEV.open, DEV.close and DEV.read (46 R192, R194, R195). -/

theorem answers_devOpen {s : State} (hl : s.life = .ready) :
    Answers .devOpen s .ok .none { s with openCount := s.openCount + 1 } := by
  simp only [Answers, exec, execDevOpen, whenReady_ready hl, reply]

theorem answers_devClose {s : State} (hl : s.life = .ready) : Answers .devClose s .ok .none s := by
  simp only [Answers, exec, execDevClose, whenReady_ready hl, reply]

/-- The copy succeeded, or there was no byte to copy: the whole payload is consumed. -/
theorem answers_devRead_copied {s : State} (hl : s.life = .ready) {cap : Nat} {copyOk : Bool}
    (h : copyOk = true ∨ min cap s.buf.length = 0) :
    Answers (.devRead cap copyOk) s .ok (.bytes (s.buf.take cap) (min cap s.buf.length)) { s with buf := [] } := by
  have no_fault : ¬(min cap s.buf.length > 0 ∧ copyOk = false) := by
    rintro ⟨hn, rfl⟩
    exact hn.ne' (h.resolve_left Bool.false_ne_true)
  simp only [Answers, exec, execDevRead, whenReady_ready hl, if_neg no_fault, reply, ← List.take_eq_take_min]

theorem answers_devRead_fault {s : State} (hl : s.life = .ready) {cap : Nat} (hn : 0 < min cap s.buf.length) :
    Answers (.devRead cap false) s .eFault .none s := by
  simp only [Answers, exec, execDevRead, whenReady_ready hl, gt_iff_lt, hn, and_self, if_true, reply]

/-- With nothing to copy the outcome of the copy is not consulted. -/
theorem answers_devRead_nothing {s : State} (hl : s.life = .ready) {cap : Nat} (h : cap = 0 ∨ s.buf = [])
    (copyOk : Bool) : Answers (.devRead cap copyOk) s .ok (.bytes [] 0) { s with buf := [] } := by
  obtain ⟨htake, hmin⟩ : s.buf.take cap = [] ∧ min cap s.buf.length = 0 := by
    obtain h | h := h <;> simp [h]
  simpa only [htake, hmin] using answers_devRead_copied hl (copyOk := copyOk) (.inr hmin)

/-- The state after a DEV.read that returned the whole payload, its answer recorded (46 R194). -/
def messageReadBack (cap : Nat) (s : State) : State :=
  record (.resp (.devRead cap true) .ok (.bytes s.buf s.buf.length)) { s with buf := [] }

theorem exec_devRead_whole {s : State} (hl : s.life = .ready) {cap : Nat} (hcap : s.buf.length ≤ cap) :
    exec (.devRead cap true) s = .next (messageReadBack cap s) := by
  have answers := answers_devRead_copied hl (cap := cap) (copyOk := true) (.inl rfl)
  rwa [List.take_of_length_le hcap, Nat.min_eq_right hcap] at answers

/-- The first tick of an armed block whose message was taken back idles and moves nothing (44 R154). -/
theorem fireTick_of_armed_empty {s : State} {due : Time} (hl : s.life = .ready) (hs : s.state = .armed)
    (hb : s.buf = []) (ht : s.timer = some due) (hn : s.now ≤ due) :
    fireTick s = .next { s with now := due, timer := none, state := .idle } := by
  rw [fireTick_of_due ht hn]
  exact engTick_eq_next_iff.2 ⟨hl, ht, .caseB hs hb rfl⟩

end Sys2Proof.Machine

namespace Sys2Proof.Proofs
open Sys2Proof Sys2Proof.Machine

/-- Settles O42: a good configuration leaves `broughtUp`, whose function-select word is `insertField`. -/
theorem initBringsTheBlockUp : Obligations.InitBringsTheBlockUp := by
  refine ⟨fun _ _ => ⟨rfl, rfl, rfl⟩, fun s pin baud hl => exec_sysInit_ready hl pin baud,
    fun s pin baud hl hbad => ?bad, fun s pin baud p rate r hl hp hb hrate hr => ?good⟩
  case bad =>
    refine sysInit_bad_config hl (hbad.imp ?_ ?_)
    · rintro ⟨b, rfl, hb⟩
      exact hb
    · rintro ⟨p, rfl, hp⟩ ⟨h0, h54⟩
      exact hp.elim (not_lt.2 h0) (not_le.2 h54)
  case good =>
    obtain rfl : r = fselIndex p := Fin.ext hr
    exact ⟨_, fieldChanged_insertField _ _ _, answers_sysInit hl hp hb hrate⟩

/-- Settles O43: the state after is DOWN, where only SYS.init is not refused. -/
theorem teardownCancelsThenReleases : Obligations.TeardownCancelsThenReleases := by
  refine ⟨⟨rfl, rfl, rfl⟩, fun s hl => exec_notReady hl (by simp), fun s hl => ⟨answers_sysTeardown hl, ?_⟩⟩
  intro t i hex hi
  obtain rfl := Host.Outcome.next.inj ((answers_sysTeardown hl).symm.trans hex)
  exact exec_notReady (by simp [SYS.teardown]) hi

/-- Settles O46: the counter is the one field DEV.open writes. -/
theorem openCounts : Obligations.OpenCounts := ⟨⟨rfl, rfl, rfl⟩, fun _ hl => answers_devOpen hl⟩

/-- Settles O47: the message is `messageText`, and the three answers are the branches of `MB.enqueue`. -/
theorem writeQueuesTheMessageAndArms : Obligations.WriteQueuesTheMessageAndArms :=
  ⟨fun _ _ => ⟨rfl, rfl, rfl⟩, fun _ _ _ hl => exec_notReady hl (by simp),
    fun _ _ _ hl hn => exec_devWrite_wrong_length hl hn,
    fun s data hl => ⟨messageText_length data data.length,
      fun hlen => answers_devWrite_rejected hl (by simp) (enqueue_oversize hlen s),
      fun hlen hs => answers_devWrite_rejected hl (by simp) (enqueue_busy hlen hs), exec_devWrite_queued hl⟩⟩

/-- Settles O48: by whether there is a byte to copy and whether the copy succeeds. -/
theorem readClearsOnlyAfterTheCopy : Obligations.ReadClearsOnlyAfterTheCopy := by
  refine ⟨fun _ _ => ⟨rfl, rfl, rfl⟩, fun s c ok hl => exec_notReady hl (by simp), fun s cap hl =>
    ⟨answers_devRead_copied hl (.inl rfl), fun hcap hb => ?_, fun h => answers_devRead_nothing hl h false⟩⟩
  exact answers_devRead_fault hl (lt_min hcap (List.length_pos_iff.2 hb))

/-- Settles O49: DEV.close has no effect beside its answer. -/
theorem closeDoesNothing : Obligations.CloseDoesNothing := ⟨⟨rfl, rfl, rfl⟩, fun _ hl => answers_devClose hl⟩

/-- Settles O51: the first read takes the whole message, so the second finds nothing to copy and the first tick, case B,
nothing to send. -/
theorem writeThenReadReturnsTheMessage : Obligations.WriteThenReadReturnsTheMessage := by
  intro s data cap hl hs hdata hcap
  have fits : (messageText data data.length).length ≤ 256 := (messageText_fits_iff data).2 hdata
  have not_late : s.now ≤ s.now + bitPeriod s := le_add_of_nonneg_right (bitPeriod_nonneg s)
  exact ⟨messageWritten data s, messageReadBack cap (messageWritten data s), _, _, exec_devWrite_queued hl fits hs,
    exec_devRead_whole (s := messageWritten data s) hl (fits.trans hcap), rfl,
    answers_devRead_nothing (s := messageReadBack cap (messageWritten data s)) hl (.inr rfl) true, rfl,
    fireTick_of_armed_empty hl rfl rfl rfl not_late, rfl, rfl, rfl⟩

/-- Settles O60: the defaults and the pair (4, 4800) both leave `broughtUp` of that pair. -/
theorem initAcceptsAnyPairAndDefaults : Obligations.InitAcceptsAnyPairAndDefaults := by
  refine ⟨fun s hl => ?defaults, fun s p rate hl hrate => ⟨_, answers_sysInit hl rfl rfl hrate, rfl, rfl⟩,
    fun i s t hl hex => effect_cfg_of_ready hl (exec_effect hex)⟩
  case defaults =>
    have rate_pos : 0 < Config.defaultBaud := by decide
    exact ⟨broughtUp Config.defaultPin Config.defaultBaud s, answers_sysInit hl rfl rfl rate_pos,
      answers_sysInit hl rfl rfl rate_pos, rfl, rfl, rfl⟩

end Sys2Proof.Proofs
end

section
/-!
SUPPORT for the refusals of 60 R219: operands outside the ranges of 30 R92, and an access by address that reaches no
register (20 R61, R62).
-/

namespace Sys2Proof

theorem inRange_eq_true_iff {n : Nat} {v : Int} : inRange n v = true ↔ 0 ≤ v ∧ v < n := by simp [inRange]

theorem wf_rbSetFunction_of_ranges {r off code : Int}
    (h : 0 ≤ r ∧ r < 6 ∧ 0 ≤ off ∧ off ≤ 27 ∧ off % 3 = 0 ∧ 0 ≤ code ∧ code ≤ 7) :
    (Instr.rbSetFunction r off code).wf = true := by
  obtain ⟨hr0, hr6, ho0, ho27, ho3, hc0, hc7⟩ := h
  have hr : inRange Config.nfsel r = true := inRange_eq_true_iff.2 ⟨hr0, hr6⟩
  have ho : inRange 28 off = true := inRange_eq_true_iff.2 ⟨ho0, by omega⟩
  have hc : inRange 8 code = true := inRange_eq_true_iff.2 ⟨hc0, by omega⟩
  simp only [Instr.wf, hr, ho, ho3, hc, decide_true, Bool.and_self]

/-- The check of the bank and the bit that RB.setBit and RB.clearBit share (30 R92). -/
theorem inRange_bank_and_bit {b k : Int} (h : 0 ≤ b ∧ b < 2 ∧ 0 ≤ k ∧ k < 32) :
    (inRange Config.nbank b && inRange 32 k) = true := by
  obtain ⟨hb0, hb2, hk⟩ := h
  have hb : inRange Config.nbank b = true := inRange_eq_true_iff.2 ⟨hb0, hb2⟩
  have hk : inRange 32 k = true := inRange_eq_true_iff.2 hk
  rw [hb, hk, Bool.and_self]

/-- An unfinished frame that is not legal stands at no slot (10 R44 INV4). -/
theorem bitIndex_outside_of_not_legal {f : TxFrame} (hd : f.done = false) (h : f.legal = false) :
    ¬(-1 ≤ f.bitIndex ∧ f.bitIndex ≤ 8) := by
  rintro ⟨hlo, hhi⟩
  simp [TxFrame.legal, hd, hlo, hhi] at h

end Sys2Proof

namespace Sys2Proof.Machine

/-- ENC.nextBit has no slot to emit outside -1 .. 8 (30 R103). -/
theorem nextBit_out_of_range {f : TxFrame} (hd : f.done = false) (h : ¬(-1 ≤ f.bitIndex ∧ f.bitIndex ≤ 8)) :
    ENC.nextBit f = .error .operandOutOfRange := by
  have not_start : f.bitIndex ≠ -1 := by omega
  have not_data : ¬(0 ≤ f.bitIndex ∧ f.bitIndex ≤ 7) := by omega
  have not_stop : f.bitIndex ≠ 8 := by omega
  simp only [ENC.nextBit, hd, Bool.false_eq_true, if_false, not_start, not_data, not_stop]

/-- 30 R103: a READY block refuses an operand outside its range by that name. A finished frame is refused as such. -/
theorem exec_out_of_range {i : Instr} {s : State} (hl : s.life = .ready) (hwf : i.wf = false)
    (hdone : ∀ f, i = .encNextBit f → f.done = false) : exec i s = .refused .operandOutOfRange := by
  have not_wf : ¬ i.wf = true := Bool.eq_false_iff.1 hwf
  cases i with
  | rbSetFunction r off code =>
    exact exec_rbSetFunction_out_of_range hl fun h => not_wf (wf_rbSetFunction_of_ranges h)
  | rbSetBit b k => exact exec_strobeOp_out_of_range hl .high fun h => not_wf (inRange_bank_and_bit h)
  | rbClearBit b k => exact exec_strobeOp_out_of_range hl .low fun h => not_wf (inRange_bank_and_bit h)
  | pdConfigureAsOutput p => exact exec_pdConfigureAsOutput_out_of_range hl fun h => not_wf (inRange_eq_true_iff.2 h)
  | pdWriteLevel p high => exact exec_pdWriteLevel_out_of_range hl high fun h => not_wf (inRange_eq_true_iff.2 h)
  | encNextBit f =>
    have hd : f.done = false := hdone f rfl
    have not_legal : f.legal = false := by simpa [Instr.wf, hd] using hwf
    exact exec_encNextBit_refused hl (nextBit_out_of_range hd (bitIndex_outside_of_not_legal hd not_legal))
  | devWrite data n => exact exec_devWrite_wrong_length hl (of_decide_eq_false hwf)
  | _ => exact absurd rfl not_wf

theorem exec_timerSchedule_late {s : State} (hl : s.life = .ready) {due : Time} (h : due < s.now) :
    exec (.timerSchedule due) s = .refused .dueBeforeNow := by
  simp only [exec, execTimerSchedule, whenReady_ready hl, if_pos h]

/-- A strobe stores nothing that could be read (10 R28). -/
theorem regRead_strobe {s : State} (hm : s.mapped = true) (op : Instr) (b : Fin Config.nbank) (l : Level)
    (k : Word → State → Out) : regRead op (strobeReg b l) s k = .refused .strobeRead := by
  cases l <;> exact if_pos hm

/-- An aligned word at which no register stands (10 R30). -/
theorem regAt_no_register {addr : Nat} (ha : addr % 4 = 0) (h : ∀ r, regAddr r ≠ addr) :
    regAt addr 4 = .error .noSuchRegister := by
  have hfind : allRegs.find? (fun r => regAddr r == addr) = none := List.find?_eq_none.2 fun r _ => by simp [h r]
  simp only [regAt, ha, and_self, if_true, hfind]

/-- Anything but one aligned word (20 R62). -/
theorem regAt_bad_access {addr size : Nat} (h : ¬(size = 4 ∧ addr % 4 = 0)) : regAt addr size = .error .badAccess :=
  if_neg h

theorem memAccess_refused {addr size : Nat} {r : Refusal} (h : regAt addr size = .error r) (op : Instr) (s : State)
    (k : Word → State → Out) (v : Word) :
    memRead op addr size s k = .refused r ∧ memWrite op addr size v s = .refused r := by
  simp only [memRead, memWrite, h, and_self]

end Sys2Proof.Machine

namespace Sys2Proof.Proofs
open Sys2Proof Sys2Proof.Machine

/-- Settles O9: each item of 60 R219 is the refusal of the check that meets it. -/
theorem refusalsAreByName : Obligations.RefusalsAreByName :=
  ⟨fun _ _ hl hi => exec_notReady hl hi, fun p b _ hl => exec_sysInit_ready hl p b,
    fun _ _ hl hwf hdone => exec_out_of_range hl hwf hdone, fun _ _ hl hdue => exec_timerSchedule_late hl hdue,
    fun _ _ hl hd => exec_encNextBit_refused hl (nextBit_done hd), fun _ hl hb => exec_mbDequeue_empty hl hb,
    fun op b _ k hm => ⟨regRead_strobe hm op b .high k, regRead_strobe hm op b .low k⟩,
    fun op _ s k v ha hno => memAccess_refused (regAt_no_register ha hno) op s k v,
    fun op _ _ s k v hbad => memAccess_refused (regAt_bad_access hbad) op s k v,
    fun _ _ _ ops _ hb hi =>
      step_of_call_rejected hi (fetch_of_undecodable (decode_unassigned (opcodeOf_eq_none hb) ops))⟩

end Sys2Proof.Proofs
end

section
/-!
SUPPORT for the error statuses (60 R220, R221): what an operation adds to the trace. Either it has answered an error and
changed nothing, or no answer among the events it gained is an error.
-/

namespace Sys2Proof.Machine

/-- If the event is an answer to a caller, its status is OK. -/
def OkIfAnswer : TraceEvent → Prop
  | .resp _ st _ => st = .ok
  | .regRead _ => True
  | .regWrite _ _ => True
  | .level _ => True

/-- `t` has the trace of `s` and after it no answer with an error status. -/
def GainsNoError (s t : State) : Prop :=
  ∃ es, t.trace = s.trace ++ es ∧ ∀ e ∈ es, OkIfAnswer e.event

theorem GainsNoError.of_trace_eq {s t : State} (h : t.trace = s.trace) : GainsNoError s t :=
  ⟨[], by simp [h], by simp⟩

theorem GainsNoError.ok {s t : State} (h : GainsNoError s t) (i : Instr) (res : Result) :
    GainsNoError s (record (.resp i .ok res) t) := by
  obtain ⟨es, ht, hes⟩ := h
  refine ⟨es ++ [⟨t.now, .resp i .ok res⟩], by simp [ht], fun e he => ?_⟩
  rcases List.mem_append.1 he with he | he
  · exact hes e he
  · rw [List.mem_singleton.1 he]
    rfl

theorem gainsNoError_fieldWritten (r : Fin Config.nfsel) (off : Nat) (code : BitVec 3) (s : State) :
    GainsNoError s (fieldWritten r off code s) := ⟨_, rfl, by simp [OkIfAnswer]⟩

theorem gainsNoError_bitWritten (b : Fin Config.nbank) (k : Fin 32) (l : Level) (s : State) :
    GainsNoError s (bitWritten b k l s) := by
  refine ⟨_, rfl, ?_⟩
  split <;> simp [OkIfAnswer]

theorem gainsNoError_broughtUp (p : Fin Config.npins) (rate : Nat) (s : State) :
    GainsNoError s (broughtUp p rate s) :=
  ⟨_, List.append_assoc _ _ _, by simp [pinWrite, OkIfAnswer]⟩

/-- No caller issues a tick, so a tick answers nothing (44 R152). -/
theorem gainsNoError_tick {s t : State} (h : TickEffect s t) : GainsNoError s t := by
  obtain ⟨buf, f, l, -, rfl⟩ | ⟨-, -, htrace, -⟩ := tickEffect_sends_or_ends h
  · exact ⟨_, rfl, by simp [pinWrite, OkIfAnswer]⟩
  · exact .of_trace_eq htrace

/-- 60 R220: an operation answers an error and changes nothing, or it gains no error. -/
theorem effect_errs_or_gainsNoError {i : Instr} {s t : State} (he : Effect i s t) :
    (∃ st, t = record (.resp i st .none) s) ∨ GainsNoError s t := by
  have answered_ok : ∀ {u : State} (res : Result), u.trace = s.trace →
      GainsNoError s (record (.resp i .ok res) u) :=
    fun res hu => (GainsNoError.of_trace_eq hu).ok i res
  cases i with
  | rbSetFunction =>
    obtain ⟨-, -, r, off, code, rfl⟩ := he
    exact .inr ((gainsNoError_fieldWritten r off code s).ok _ _)
  | rbSetBit => obtain ⟨-, -, b, k, rfl⟩ := he; exact .inr ((gainsNoError_bitWritten b k .high s).ok _ _)
  | rbClearBit => obtain ⟨-, -, b, k, rfl⟩ := he; exact .inr ((gainsNoError_bitWritten b k .low s).ok _ _)
  | pdConfigureAsOutput => obtain ⟨-, -, p, rfl⟩ := he; exact .inr ((gainsNoError_fieldWritten _ _ _ s).ok _ _)
  | pdWriteLevel _ high =>
    obtain ⟨-, -, p, rfl⟩ := he
    exact .inr (bitWritten_pin p (levelOf high) s ▸ (gainsNoError_bitWritten _ _ _ s).ok _ _)
  | engTick => obtain ⟨-, -, he⟩ := he; exact .inr (gainsNoError_tick he)
  | sysInit =>
    obtain ⟨-, ⟨-, rfl⟩ | ⟨p, rate, -, -, -, rfl⟩⟩ := he
    · exact .inl ⟨.eConfig, rfl⟩
    · exact .inr ((gainsNoError_broughtUp p rate s).ok _ _)
  | mbEnqueue =>
    obtain ⟨-, ⟨-, rfl⟩ | ⟨-, -, rfl⟩ | ⟨-, -, rfl⟩⟩ := he
    · exact .inl ⟨.eOversize, rfl⟩
    · exact .inl ⟨.eBusy, rfl⟩
    · exact .inr (answered_ok _ rfl)
  | devWrite =>
    obtain ⟨-, -, ⟨-, rfl⟩ | ⟨-, -, rfl⟩ | ⟨-, -, rfl⟩⟩ := he
    · exact .inl ⟨.eOversize, rfl⟩
    · exact .inl ⟨.eBusy, rfl⟩
    · exact .inr (answered_ok _ (arm_trace _))
  | devRead =>
    obtain ⟨-, rfl | rfl⟩ := he
    · exact .inl ⟨.eFault, rfl⟩
    · exact .inr (answered_ok _ rfl)
  | engArm => obtain ⟨-, rfl⟩ := he; exact .inr (answered_ok _ (arm_trace s))
  | encNextBit | mbDequeue => obtain ⟨-, _, _, -, rfl⟩ := he; exact .inr (answered_ok _ rfl)
  | timerSchedule => obtain ⟨-, -, rfl⟩ := he; exact .inr (answered_ok _ rfl)
  | encFresh | engCancel | timerDeschedule | mbConsume | mbIsEmpty | sysTeardown | devOpen | devClose =>
    obtain ⟨-, rfl⟩ := he; exact .inr (answered_ok _ rfl)

/-- Where an operation gained only its answer, an answer found among the gained events is that one. -/
theorem answer_of_mem_gained {s u : State} (hu : u.trace = s.trace) {i j : Instr} {st st' : Status} {res res' : Result}
    {es : List Stamped} {at_ : Time} (ht : (record (.resp i st res) u).trace = s.trace ++ es)
    (hmem : ⟨at_, .resp j st' res'⟩ ∈ es) : st' = st ∧ res' = res := by
  rw [record_trace, hu] at ht
  rw [← List.append_cancel_left ht, List.mem_singleton] at hmem
  cases hmem
  exact ⟨rfl, rfl⟩

end Sys2Proof.Machine

namespace Sys2Proof.Proofs
open Sys2Proof Sys2Proof.Machine

/-- Settles O10: an operation that gains an error has recorded that answer and nothing else. -/
theorem errorsChangeNothing : Obligations.ErrorsChangeNothing := by
  intro i s t es st res hex ht hmem hst
  obtain ⟨st', rfl⟩ | ⟨es', ht', hok⟩ := effect_errs_or_gainsNoError (exec_effect hex)
  · obtain ⟨rfl, rfl⟩ := answer_of_mem_gained rfl ht hmem
    exact ⟨rfl, rfl⟩
  · obtain rfl : es = es' := List.append_cancel_left (ht.symm.trans ht')
    exact absurd (hok _ hmem) hst

/-- Settles O11: the refusals hold without a condition on the rest, the size is checked before the busy engine, and the
baud before the pin. -/
theorem firstFailingCheckDecides : Obligations.FirstFailingCheckDecides := by
  refine ⟨fun i s hl hi => exec_notReady hl hi, fun s pin baud hl => exec_sysInit_ready hl pin baud,
    fun s data n hl hn => exec_devWrite_wrong_length hl hn, fun s bytes hl hlen => ?enqueueOversize,
    fun s bytes hl hlen hs => ?enqueueBusy, fun s data hl hlen => ?writeOversize, fun s data hl hlen hs => ?writeBusy,
    fun s pin baud hl hb => sysInit_bad_config hl (.inl hb), fun s pin baud hl _ hp => ?badPin,
    fun s t cap ok es st res hex ht hmem => ?readStatus⟩
  case enqueueOversize => simpa only [enqueue_oversize hlen] using answers_mbEnqueue hl bytes
  case enqueueBusy => simpa only [enqueue_busy hlen hs] using answers_mbEnqueue hl bytes
  case writeOversize =>
    rw [← messageText_length] at hlen
    exact answers_devWrite_rejected hl (by simp) (enqueue_oversize hlen s)
  case writeBusy =>
    rw [← messageText_length] at hlen
    exact answers_devWrite_rejected hl (by simp) (enqueue_busy hlen hs)
  case badPin => exact sysInit_bad_config hl (.inr fun ⟨h0, h54⟩ => hp.elim (not_lt.2 h0) (not_le.2 h54))
  case readStatus =>
    obtain ⟨-, rfl | rfl⟩ := exec_effect hex
    · exact .inr (answer_of_mem_gained rfl ht hmem).1
    · exact .inl (answer_of_mem_gained (u := { s with buf := [] }) rfl ht hmem).1

end Sys2Proof.Proofs
end

section
/-!
SUPPORT for the answers to callers (60 R237) and the cancel at a due instant (60 R224): every CMD and DEV operation but
SYS.init has an answer in every READY state.
-/

namespace Sys2Proof.Machine

theorem answers_engArm {s : State} (hl : s.life = .ready) : Answers .engArm s .ok .none (ENG.arm s) := by
  simp only [Answers, exec, execEngArm, whenReady_ready hl, reply]

theorem answers_engCancel {s : State} (hl : s.life = .ready) : Answers .engCancel s .ok .none (ENG.cancel s) := by
  simp only [Answers, exec, execEngCancel, whenReady_ready hl, reply]

/-- Whether the message is too long, the engine busy or the message queued, DEV.write is answered (46 R193). -/
theorem exists_next_devWrite {s : State} (hl : s.life = .ready) (data : List Byte) :
    ∃ t, exec (.devWrite data data.length) s = .next t := by
  by_cases hlen : (messageText data data.length).length ≤ Config.capacity
  · by_cases hs : s.state = .idle
    · exact ⟨_, exec_devWrite_queued hl hlen hs⟩
    · exact ⟨_, answers_devWrite_rejected hl (by simp) (enqueue_busy hlen hs)⟩
  · exact ⟨_, answers_devWrite_rejected hl (by simp) (enqueue_oversize (not_le.1 hlen) s)⟩

/-- Whether the copy succeeds or not, DEV.read is answered (46 R194). -/
theorem exists_next_devRead {s : State} (hl : s.life = .ready) (cap : Nat) (copyOk : Bool) :
    ∃ t, exec (.devRead cap copyOk) s = .next t := by
  cases copyOk with
  | true => exact ⟨_, answers_devRead_copied hl (.inl rfl)⟩
  | false =>
    by_cases hn : min cap s.buf.length = 0
    · exact ⟨_, answers_devRead_copied hl (.inr hn)⟩
    · exact ⟨_, answers_devRead_fault hl (Nat.pos_of_ne_zero hn)⟩

/-- 60 R237: a READY block answers every operation of its callers, in whatever state the engine is. -/
theorem exists_next_of_cmd_or_dev {i : Instr} {s : State} (hl : s.life = .ready)
    (hfmt : i.format = .cmd ∨ i.format = .dev) (hwf : i.wf = true) (hinit : ∀ p b, i ≠ .sysInit p b) :
    ∃ t, exec i s = .next t := by
  cases i with
  | engArm => exact ⟨_, answers_engArm hl⟩
  | engCancel => exact ⟨_, answers_engCancel hl⟩
  | mbEnqueue bytes => exact ⟨_, answers_mbEnqueue hl bytes⟩
  | mbConsume => exact ⟨_, answers_mbConsume hl⟩
  | mbIsEmpty => exact ⟨_, answers_mbIsEmpty hl⟩
  | sysInit p b => exact absurd rfl (hinit p b)
  | sysTeardown => exact ⟨_, answers_sysTeardown hl⟩
  | devOpen => exact ⟨_, answers_devOpen hl⟩
  | devWrite data n =>
    obtain rfl : n = data.length := of_decide_eq_true hwf
    exact exists_next_devWrite hl data
  | devRead cap copyOk => exact exists_next_devRead hl cap copyOk
  | devClose => exact ⟨_, answers_devClose hl⟩
  | _ => simp [Instr.format] at hfmt

/-- A due tick runs in every READY state that meets the invariant (44 R152). -/
theorem exists_next_due_tick {s : State} (hinv : Inv s) (hl : s.life = .ready) (ht : s.timer = some s.now) :
    ∃ t, exec .engTick s = .next t := by
  obtain ⟨due_runs, -⟩ := Proofs.tickRunsExactlyWhenDue
  exact (due_runs s hinv).2 ⟨hl, ht⟩

end Sys2Proof.Machine

namespace Sys2Proof.Proofs
open Sys2Proof Sys2Proof.Machine

/-- Settles O12: each operation has an answer of its own, and a due tick has a case to take. -/
theorem blockAnswersEveryCaller : Obligations.BlockAnswersEveryCaller :=
  fun _ hinv hl => ⟨fun _ hfmt hwf hinit => exists_next_of_cmd_or_dev hl hfmt hwf hinit, exists_next_due_tick hinv hl⟩

/-- Settles O59: the tick leaves the block READY at the same instant, so the cancel is answered before it and after it. -/
theorem cancelAndTickInEitherOrder : Obligations.CancelAndTickInEitherOrder := by
  intro s hinv hl ht
  refine ⟨⟨_, answers_engCancel hl, rfl, rfl, rfl⟩, ?_⟩
  obtain ⟨t, hex⟩ := exists_next_due_tick hinv hl ht
  obtain ⟨-, -, he⟩ := engTick_next hex
  obtain ⟨hnow, -, -, -, hlife, -⟩ := tickEffect_frame he
  exact ⟨t, _, hex, answers_engCancel (hlife.trans hl), rfl, rfl, hnow⟩

/-- Settles O5: the table row by row for each context, and a command from any other context is rejected by the fetch. -/
theorem contextTable : Obligations.ContextTable := by
  refine ⟨fun i ctx => ?table, fun s t ctx i rest hi hst => ?ran⟩
  case table =>
    cases ctx with
    | process => cases i <;> simp [Instr.contexts]
    | callback => cases i <;> simp [Instr.contexts]
  case ran =>
    by_contra hx
    have rejected := step_of_call_rejected hi (fetch_of_wrong_context (decode_encode i) hx)
    cases rejected.symm.trans hst

end Sys2Proof.Proofs
end

section
/-!
SUPPORT for a step with an empty inbox (60 R236, 70 R270), the configuration of a READY block through a step (70 R255),
and a message taken back before its first tick (44 R154, 45 R181).
-/

namespace Sys2Proof.Machine

theorem idleStep_none {s : State} (ht : s.timer = none) : idleStep s = .next s := by
  simp [idleStep, callbackPending, ht]

theorem idleStep_due {s : State} {due : Time} (ht : s.timer = some due) : idleStep s = fireTick s := by
  simp [idleStep, callbackPending, ht]

/-- A tick, the passing of time and a write from outside do not touch the configuration, and no operation that a READY
block accepts does (70 R255). -/
theorem stepEffect_cfg_of_ready {s t : State} (hl : s.life = .ready) (h : StepEffect s t) : t.cfg = s.cfg := by
  cases h with
  | idle hi ht e => exact e ▸ rfl
  | tick due hd hn hl he =>
    obtain ⟨-, -, hcfg, -⟩ := tickEffect_frame he
    exact hcfg
  | issuedTick ctx cmd rest due hi hc hd hn hl he =>
    obtain ⟨-, -, hcfg, -⟩ := tickEffect_frame he
    exact hcfg
  | elapsed u rest hi hu hd e => exact e ▸ rfl
  | outsideFsel i v rest hi hf e => exact e ▸ rfl
  | outsideLatch p l rest hi hp e => exact e ▸ rfl
  | call ctx cmd rest i hi hc hx ht he => exact effect_cfg_of_ready (s := { s with inbox := rest }) hl he

/-- The state after MB.enqueue has queued a message in IDLE, its answer recorded (45 R180). -/
def messageQueued (bytes : List Byte) (s : State) : State :=
  record (.resp (.mbEnqueue bytes) .ok .none) { s with buf := bytes }

theorem exec_mbEnqueue_queued {s : State} (hl : s.life = .ready) (hs : s.state = .idle) {bytes : List Byte}
    (hlen : bytes.length ≤ Config.capacity) : exec (.mbEnqueue bytes) s = .next (messageQueued bytes s) := by
  have answers := answers_mbEnqueue hl bytes
  rwa [enqueue_idle hlen hs] at answers

end Sys2Proof.Machine

namespace Sys2Proof
open Sys2Proof.Machine

/-- A callback that fires by itself keeps the invariant, as a step that issues nothing does. -/
theorem Inv.fireTick {s t : State} (h : Inv s) (hf : fireTick s = .next t) : Inv t := by
  obtain ⟨due, hd, hn, hl, he⟩ := fireTick_next hf
  exact (h.atDue hd hn).tick hl he

end Sys2Proof

namespace Sys2Proof.Proofs
open Sys2Proof Sys2Proof.Machine

/-- Settles O7: by whether a callback is pending; one that is not yet past fires at its due time. -/
theorem idleBlockTakesNoStep : Obligations.IdleBlockTakesNoStep := by
  intro s hi
  rw [step_of_inbox_nil hi]
  refine ⟨idleStep_none, fun due ht hn => ?_⟩
  rw [idleStep_due ht, fireTick_of_due ht hn]

/-- Settles O45: no step writes the configuration of a READY block; a teardown leaves it DOWN, where SYS.init is
accepted. -/
theorem configurationIsFixedWhileReady : Obligations.ConfigurationIsFixedWhileReady := by
  refine ⟨fun s t hl hst => stepEffect_cfg_of_ready hl (step_effect hst), fun s p baud hl hbaud => ?_⟩
  have down : (record (.resp .sysTeardown .ok .none) (SYS.teardown s)).life ≠ .ready := by simp [SYS.teardown]
  exact ⟨_, _, answers_sysTeardown hl, answers_sysInit down rfl rfl hbaud, rfl, rfl⟩

/-- Settles O55: the tick finds the block armed with nothing to send, so case B idles it; none of the four steps writes
the latch or the function field, and each keeps the invariant. -/
theorem idleByTickCanBeLowAfterACancel : Obligations.IdleByTickCanBeLowAfterACancel := by
  intro s bytes hinv hl hs hline hne hlen
  have queued := exec_mbEnqueue_queued hl hs hlen
  have armed := exec_engArm_messageArmed (s := messageQueued bytes s) hl hs hne
  have consumed := answers_mbConsume (s := messageArmed (messageQueued bytes s)) hl
  have not_late : s.now ≤ s.now + bitPeriod s := le_add_of_nonneg_right (bitPeriod_nonneg s)
  have ticked := fireTick_of_armed_empty (s := bufConsumed (messageArmed (messageQueued bytes s))) hl rfl rfl rfl
    not_late
  have kept := ((hinv.effect rfl (exec_effect queued)).effect rfl (exec_effect armed)).effect rfl (exec_effect consumed)
  exact ⟨_, _, _, _, queued, armed, consumed, ticked, rfl, kept.fireTick ticked, hline⟩

end Sys2Proof.Proofs
end
